-- ==== Sys2Proof/Word.lean ====
section
/-! DEFINITION. The words the machine computes with: 32-bit registers and addresses, 8-bit bytes
(spec/00_scope.md R7, R13, R14). -/
namespace Sys2Proof

/-- A register's contents, an address, an instruction word (R7, R13). -/
abbrev Word := BitVec 32

/-- One byte of memory (R14: `bits(8*size)`). -/
abbrev Byte := BitVec 8

end Sys2Proof
end

