-- ==== Sys2Proof/Syntax.lean ====
section
/-! DEFINITION. The instructions: one constructor per row of spec/opcode_table.json. -/
namespace Sys2Proof

/-- The instruction set a word is decoded in (spec/10_state.md R32). -/
inductive ISet where
  | a32
  | t32
  deriving DecidableEq, Repr

/-- The fifteen usable conditions of spec/10_state.md R29; the value `1111` is none of them. -/
inductive Cond where
  | eq | ne | cs | cc | mi | pl | vs | vc | hi | ls | ge | lt | gt | le | al
  deriving DecidableEq, Repr

/-- The fifteen rows of spec/opcode_table.json. `rn`, `rt` are the 4-bit register fields, `u` is
`U == '1'`, `imm8` is `imm4H:imm4L` in A1 (spec/30_encoding.md R67) and the `imm8` field in T2. -/
inductive Instr where
  /-- `LDRSB_i_A1_off` (R70, R97). -/
  | ldrsbA1Off (cond : Cond) (u : Bool) (rn rt : BitVec 4) (imm8 : BitVec 8)
  /-- `LDRSB_i_A1_post` (R71, R98). -/
  | ldrsbA1Post (cond : Cond) (u : Bool) (rn rt : BitVec 4) (imm8 : BitVec 8)
  /-- `LDRSB_i_A1_pre` (R72, R99). -/
  | ldrsbA1Pre (cond : Cond) (u : Bool) (rn rt : BitVec 4) (imm8 : BitVec 8)
  /-- `LDRSB_i_T1` (R73, R100). -/
  | ldrsbT1 (rn rt : BitVec 4) (imm12 : BitVec 12)
  /-- `LDRSB_i_T2_off` (R74, R101). -/
  | ldrsbT2Off (rn rt : BitVec 4) (imm8 : BitVec 8)
  /-- `LDRSB_i_T2_post` (R75, R102). -/
  | ldrsbT2Post (u : Bool) (rn rt : BitVec 4) (imm8 : BitVec 8)
  /-- `LDRSB_i_T2_pre` (R76, R103). -/
  | ldrsbT2Pre (u : Bool) (rn rt : BitVec 4) (imm8 : BitVec 8)
  /-- `T2_P0_W0`: the UNDEFINED pattern (R80). -/
  | undefinedT2 (u : Bool) (rn rt : BitVec 4) (imm8 : BitVec 8)
  /-- `A1_P0_W1`: `SEE "LDRSBT"` (R79). -/
  | seeLdrsbtA1 (cond : Cond) (u : Bool) (rn rt : BitVec 4) (imm8 : BitVec 8)
  /-- `T2_P1_U1_W0`: `SEE "LDRSBT"` (R79). -/
  | seeLdrsbtT2 (rn rt : BitVec 4) (imm8 : BitVec 8)
  /-- `T1_Rt15`: `SEE "PLI"` (R78). -/
  | seePliT1 (rn : BitVec 4) (imm12 : BitVec 12)
  /-- `T2_Rt15_P1_U0_W0`: `SEE "PLI"` (R78). -/
  | seePliT2 (rn : BitVec 4) (imm8 : BitVec 8)
  /-- `A1_Rn15`: `SEE "LDRSB (literal)"` (R77). -/
  | seeLiteralA1 (cond : Cond) (p u w : Bool) (rt : BitVec 4) (imm8 : BitVec 8)
  /-- `T1_Rn15`: `SEE "LDRSB (literal)"` (R77). -/
  | seeLiteralT1 (rt : BitVec 4) (imm12 : BitVec 12)
  /-- `T2_Rn15`: `SEE "LDRSB (literal)"` (R77). -/
  | seeLiteralT2 (p u w : Bool) (rt : BitVec 4) (imm8 : BitVec 8)
  deriving DecidableEq, Repr

/-- The instruction set of the row's class (R60): A1 is A32, T1 and T2 are T32. -/
def Instr.iset : Instr → ISet
  | .ldrsbA1Off .. => .a32
  | .ldrsbA1Post .. => .a32
  | .ldrsbA1Pre .. => .a32
  | .ldrsbT1 .. => .t32
  | .ldrsbT2Off .. => .t32
  | .ldrsbT2Post .. => .t32
  | .ldrsbT2Pre .. => .t32
  | .undefinedT2 .. => .t32
  | .seeLdrsbtA1 .. => .a32
  | .seeLdrsbtT2 .. => .t32
  | .seePliT1 .. => .t32
  | .seePliT2 .. => .t32
  | .seeLiteralA1 .. => .a32
  | .seeLiteralT1 .. => .t32
  | .seeLiteralT2 .. => .t32

end Sys2Proof
end

