-- ==== Sys2Proof/Decode.lean ====
section
/-! DEFINITION. The decoder (spec/30_encoding.md R60 to R82), total on every word, and the encoder
written from the same field tables. -/
namespace Sys2Proof

/-! ### Bit fields (R8) -/

/-- The field of `n` bits whose lowest bit is bit `lo` (R8: `v[lo+n-1:lo]`). -/
def field (w : Word) (lo n : Nat) : BitVec n := w.extractLsb' lo n

/-- Bit `i` is 1 (R8). -/
def bit (w : Word) (i : Nat) : Bool := w.getLsbD i

/-! ### Conditions (spec/10_state.md R29) -/

/-- The condition a 4-bit value names; `1111` names none (R29, last row). -/
def Cond.ofBits (c : BitVec 4) : Option Cond :=
  match c.toNat with
  | 0 => some .eq
  | 1 => some .ne
  | 2 => some .cs
  | 3 => some .cc
  | 4 => some .mi
  | 5 => some .pl
  | 6 => some .vs
  | 7 => some .vc
  | 8 => some .hi
  | 9 => some .ls
  | 10 => some .ge
  | 11 => some .lt
  | 12 => some .gt
  | 13 => some .le
  | 14 => some .al
  | _ => none

/-- The 4-bit value of a condition (R29). -/
def Cond.bits : Cond → BitVec 4
  | .eq => 0b0000#4
  | .ne => 0b0001#4
  | .cs => 0b0010#4
  | .cc => 0b0011#4
  | .mi => 0b0100#4
  | .pl => 0b0101#4
  | .vs => 0b0110#4
  | .vc => 0b0111#4
  | .hi => 0b1000#4
  | .ls => 0b1001#4
  | .ge => 0b1010#4
  | .lt => 0b1011#4
  | .gt => 0b1100#4
  | .le => 0b1101#4
  | .al => 0b1110#4

/-! ### The decoder -/

/-- What decoding a word answers: a row of the table, or the rejection of R65. -/
inductive Decoded where
  | instr (i : Instr)
  | notLdrsbImmediate
  deriving DecidableEq, Repr

/-- The class test of A1 (R61, R65), less `cond != 1111`. -/
def isA1 (w : Word) : Bool := w &&& 0x0E5000F0#32 == 0x005000D0#32

/-- The class test of T1 (R62, R65). -/
def isT1 (w : Word) : Bool := w &&& 0xFFF00000#32 == 0xF9900000#32

/-- The class test of T2 (R63, R65). -/
def isT2 (w : Word) : Bool := w &&& 0xFFF00800#32 == 0xF9100800#32

/-- The A1 Decode steps of R81 (1) to (3), on the fields of the word. Step (4), UNPREDICTABLE, is not
a decoding of its own: the row's meaning decides it (log entry 16). -/
def stepsA1 (cond : Cond) (p u w : Bool) (rn rt : BitVec 4) (imm8 : BitVec 8) : Instr :=
  if rn = 15#4 then .seeLiteralA1 cond p u w rt imm8
  else
    match p, w with
    | false, true => .seeLdrsbtA1 cond u rn rt imm8
    | false, false => .ldrsbA1Post cond u rn rt imm8
    | true, false => .ldrsbA1Off cond u rn rt imm8
    | true, true => .ldrsbA1Pre cond u rn rt imm8

/-- The T1 Decode steps of R81. -/
def stepsT1 (rn rt : BitVec 4) (imm12 : BitVec 12) : Instr :=
  if rt = 15#4 then .seePliT1 rn imm12
  else if rn = 15#4 then .seeLiteralT1 rt imm12
  else .ldrsbT1 rn rt imm12

/-- The T2 Decode steps of R81 (1) to (5); step (6) as in `stepsA1`. -/
def stepsT2 (p u w : Bool) (rn rt : BitVec 4) (imm8 : BitVec 8) : Instr :=
  if rt = 15#4 ∧ p = true ∧ u = false ∧ w = false then .seePliT2 rn imm8
  else if rn = 15#4 then .seeLiteralT2 p u w rt imm8
  else
    match p, w with
    | true, false => if u then .seeLdrsbtT2 rn rt imm8 else .ldrsbT2Off rn rt imm8
    | false, false => .undefinedT2 u rn rt imm8
    | false, true => .ldrsbT2Post u rn rt imm8
    | true, true => .ldrsbT2Pre u rn rt imm8

/-- Decode in A32 (R65). The immediate is `imm4H:imm4L` (R67). -/
def decodeA32 (w : Word) : Decoded :=
  if isA1 w then
    match Cond.ofBits (field w 28 4) with
    | none => .notLdrsbImmediate
    | some cond =>
      .instr (stepsA1 cond (bit w 24) (bit w 23) (bit w 21) (field w 16 4) (field w 12 4)
        (field w 8 4 ++ field w 0 4))
  else .notLdrsbImmediate

/-- Decode in T32 (R65); the word is `(hw1 << 16) | hw2` (R57). -/
def decodeT32 (w : Word) : Decoded :=
  if isT1 w then .instr (stepsT1 (field w 16 4) (field w 12 4) (field w 0 12))
  else if isT2 w then
    .instr (stepsT2 (bit w 10) (bit w 9) (bit w 8) (field w 16 4) (field w 12 4) (field w 0 8))
  else .notLdrsbImmediate

/-- Decode of a fetched word `w` in instruction set `s`, as a total function (R65). -/
def decode (s : ISet) (w : Word) : Decoded :=
  match s with
  | .a32 => decodeA32 w
  | .t32 => decodeT32 w

/-! ### The encoder -/

/-- A word of class A1 from its fields (R61). -/
def wordA1 (cond : Cond) (p u w : Bool) (rn rt : BitVec 4) (imm8 : BitVec 8) : Word :=
  cond.bits ++ 0b000#3 ++ BitVec.ofBool p ++ BitVec.ofBool u ++ 0b1#1 ++ BitVec.ofBool w ++ 0b1#1
    ++ rn ++ rt ++ imm8.extractLsb' 4 4 ++ 0b1101#4 ++ imm8.extractLsb' 0 4

/-- A word of class T1 from its fields, `hw1` in bits 31:16 (R62). -/
def wordT1 (rn rt : BitVec 4) (imm12 : BitVec 12) : Word :=
  0b111110011#9 ++ 0b00#2 ++ 0b1#1 ++ rn ++ rt ++ imm12

/-- A word of class T2 from its fields, `hw1` in bits 31:16 (R63). -/
def wordT2 (p u w : Bool) (rn rt : BitVec 4) (imm8 : BitVec 8) : Word :=
  0b111110010#9 ++ 0b00#2 ++ 0b1#1 ++ rn ++ rt ++ 0b1#1 ++ BitVec.ofBool p ++ BitVec.ofBool u
    ++ BitVec.ofBool w ++ imm8

/-- The word of an instruction (R61 to R63, R70 to R80): the 32-bit pattern as the diagrams number
it. -/
def encode : Instr → Word
  | .ldrsbA1Off cond u rn rt imm8 => wordA1 cond true u false rn rt imm8
  | .ldrsbA1Post cond u rn rt imm8 => wordA1 cond false u false rn rt imm8
  | .ldrsbA1Pre cond u rn rt imm8 => wordA1 cond true u true rn rt imm8
  | .ldrsbT1 rn rt imm12 => wordT1 rn rt imm12
  | .ldrsbT2Off rn rt imm8 => wordT2 true false false rn rt imm8
  | .ldrsbT2Post u rn rt imm8 => wordT2 false u true rn rt imm8
  | .ldrsbT2Pre u rn rt imm8 => wordT2 true u true rn rt imm8
  | .undefinedT2 u rn rt imm8 => wordT2 false u false rn rt imm8
  | .seeLdrsbtA1 cond u rn rt imm8 => wordA1 cond false u true rn rt imm8
  | .seeLdrsbtT2 rn rt imm8 => wordT2 true true false rn rt imm8
  | .seePliT1 rn imm12 => wordT1 rn 15#4 imm12
  | .seePliT2 rn imm8 => wordT2 true false false rn 15#4 imm8
  | .seeLiteralA1 cond p u w rt imm8 => wordA1 cond p u w 15#4 rt imm8
  | .seeLiteralT1 rt imm12 => wordT1 15#4 rt imm12
  | .seeLiteralT2 p u w rt imm8 => wordT2 p u w 15#4 rt imm8

/-! ### How an instruction lies in memory (spec/20_memory.md R56, R57) -/

/-- The instruction word of the four bytes at ascending addresses: in A32 the little-endian word
(R56); in T32 two little-endian halfwords, the first in bits 31:16 (R57). -/
def wordOfBytes (s : ISet) (b0 b1 b2 b3 : Byte) : Word :=
  match s with
  | .a32 => b3 ++ b2 ++ b1 ++ b0
  | .t32 => b1 ++ b0 ++ b3 ++ b2

/-- Byte `k` (0 to 3, at ascending addresses) of an instruction word: the inverse of `wordOfBytes`. -/
def byteOfWord (s : ISet) (w : Word) (k : Nat) : Byte :=
  match s with
  | .a32 => w.extractLsb' (8 * k) 8
  | .t32 => w.extractLsb' (8 * ((k + 2) % 4)) 8

/-! ### The opcode table's numbering -/

/-- Which instruction set a word of spec/opcode_table.json belongs to: bits 31:28 are `1111` in every
T32 row and in no A32 row (R61: `cond != 1111`; R62, R63). Log entry 19. -/
def tableSet (w : Word) : ISet := if field w 28 4 = 15#4 then .t32 else .a32

/-- The word whose low `nbits` bits are those of `w` and whose other bits are 0. -/
def tableWord (nbits w : Nat) : Word := BitVec.ofNat 32 (w % 2 ^ nbits)

/-- The instruction the decoder reads from a word of the opcode table. The table numbers all rows as
the diagrams do (a T32 row's bits 31:16 are `hw1`), so the bytes laid out in memory are read back by
`wordOfBytes`. -/
def decodeTableWord (nbits w : Nat) : Option Instr :=
  let v := tableWord nbits w
  let s := tableSet v
  match decode s (wordOfBytes s (byteOfWord s v 0) (byteOfWord s v 1) (byteOfWord s v 2)
      (byteOfWord s v 3)) with
  | .instr i => some i
  | .notLdrsbImmediate => none

end Sys2Proof
end

