-- ==== Sys2Proof/Config.lean ====
section
/-! DEFINITION. The launch parameters of the spec (spec/10_state.md R37: "parameters of the step
relation and not state"), as plain data that every statement ranges over, and the free values, which
have no body so that nothing can be proved of their value. -/
namespace Sys2Proof.Config

/-- The `kind` of an access that `MEM_ADMIT(addr, kind)` is asked about (spec/20_memory.md R47). -/
inductive AccessKind where
  | dataRead
  | fetch
  deriving DecidableEq, Repr

/-- The addresses `first` to `last`, both inclusive, admitted for one kind of access. -/
structure Window where
  first : Word
  last : Word
  kind : AccessKind
  deriving DecidableEq, Repr

/-- The three outcomes the source permits for `wback && n == t` (spec/40_ldrsb_immediate.md R108). -/
inductive CuOutcome where
  | undef
  | nop
  | loadBaseUnknown
  deriving DecidableEq, Repr, Inhabited

/-- `CU_WBACK_N_EQ_T` (R7, R108, D14): the spec's default fault, one outcome at every execution, or a
free choice made afresh at each execution ("A model must not assume the same option is taken every
time", D14). -/
inductive CuPolicy where
  | specFault
  | fixed (o : CuOutcome)
  | drawn
  deriving DecidableEq, Repr

/-- The launch parameters (R37). No step changes them. -/
structure Params where
  /-- `MEM_ADMIT` (R47), true exactly of the addresses in a window of that kind. -/
  memAdmit : List Window
  /-- `CU_WBACK_N_EQ_T` (R108). -/
  cuWback : CuPolicy
  /-- Whether a read that raises an exception under `LOAD_BASE_UNKNOWN` leaves an UNKNOWN value in the base
  register: TRUE, the last words of R108; FALSE, spec/60_exceptions.md R128 ("hardware behaviour the model
  does not reproduce"), D17, D26. DESIGN CHOICE (log entry 14). -/
  abortCorruptsBase : Bool
  /-- `UNDEF_IGNORES_COND` (R7, R109, D16): TRUE, an UNDEFINED or UNPREDICTABLE word acts as such even
  when its condition fails; FALSE, a failed condition makes it a no-op. -/
  undefIgnoresCond : Bool
  /-- `HALT_PC` (spec/70_reset_and_hazards.md R143); none: no address ends the run. -/
  haltPc : Option Word
  deriving DecidableEq, Repr

/-- FREE VALUE (log entry 10): the `k`-th `UNKNOWN` word (R17, R108, spec/93 U3): "a free draw under no
law". -/
opaque unknownWord : Nat → Word

/-- FREE VALUE (log entry 9): the `k`-th choice among the three outcomes of R108 under
`CuPolicy.drawn`. -/
opaque cuDraw : Nat → CuOutcome

end Sys2Proof.Config
end

