-- ==== Sys2Proof/Machine/State.lean ====
section
/-! DEFINITION. The state of the machine (spec/10_state.md R38), the reasons a step stops
(spec/60_exceptions.md R124) and the state after reset. -/
namespace Sys2Proof.Machine

/-- The reason of an `Unpredictable(reason)` fault (R124). -/
inductive UnpredictableReason where
  /-- R104: A1 with `t == 15`. -/
  | a1Rt15
  /-- R106: T2 with `t == 15 && W == '1'`. -/
  | t2Rt15W
  /-- R108: `wback && n == t`, under the spec's default. -/
  | wbackNEqT
  deriving DecidableEq, Repr

/-- The faults of R124. -/
inductive Fault where
  /-- The Undefined Instruction exception, with the word (R120). Taken by `undefinedT2` and by
  the write-back forms with `Rt == Rn` under the outcome `UNDEF` (R108). It is recorded in `State.fault`;
  the next step stops with it. Safe: no handler is entered, so nothing about one can be proved. -/
  | undefinedInstruction (w : Word)
  /-- The Data Abort exception, with the address of the byte (R121). Taken by every `LDRSB`
  whose address `MEM_ADMIT` does not memAdmit; recorded as above. Safe, as above. -/
  | dataAbort (address : Word)
  /-- Raised by the forms of R104, R106 and, under `CuPolicy.specFault`, of R105 and R107. Safe: the
  word gets no next state (D13). -/
  | unpredictable (reason : UnpredictableReason)
  /-- Raised by a step at `pc >= 0xFFFFFFFC` (R27). Safe: the machine stops. -/
  | pcWrap
  /-- Raised by a step one of whose four bytes at `pc` is not admitted (R58). Safe: the machine
  stops. -/
  | fetchFault (pc : Word)
  deriving DecidableEq, Repr

/-- The refusals of R124, and the end of a run. -/
inductive Refusal where
  /-- No instruction of this model answers it: every constructor of `Instr` has its meaning. Safe. -/
  | notModelled (mnemonic : String)
  /-- A word outside the three classes, raised by a step (R65). Safe. -/
  | notLdrsbImmediate
  /-- The word is `LDRSB (literal)`, another instruction, raised by the `Rn == '1111'` rows (R77). Safe. -/
  | seeLdrsbLiteral
  /-- The word is `LDRSBT`, another instruction, raised by the two `LDRSBT` rows (R79). Safe. -/
  | seeLdrsbt
  /-- The word is `PLI`, another instruction, raised by the two `PLI` rows (R78). Safe. -/
  | seePli
  /-- `pc` is not aligned for `iset`, raised by a step (R27). Safe. -/
  | misalignedPc
  /-- `it` is not legal for `iset`, raised by a step (R33). Safe. -/
  | illegalItstate
  /-- `pc == HALT_PC`: the run is over, raised by a step (R116, R143; log entry 12). Safe. -/
  | runOver
  deriving DecidableEq, Repr

/-- The four condition flags (R28). -/
structure Flags where
  n : Bool
  z : Bool
  c : Bool
  v : Bool
  deriving DecidableEq, Repr

/-- `MEM` (R34): the bytes that differ from what an unlisted address reads as, by rising address. -/
abbrev Memory := List Host.Cell

/-- The number of a general register that the state holds: 0 to 14 (R23, R38). -/
abbrev RegNum := Fin 15

/-- The state tuple of R38, the launch parameters of R37, and the counter of free draws. -/
structure State where
  /-- `x[0]` to `x[14]` (R20, R38). -/
  regs : Vector Word 15
  /-- The address of the instruction being executed (R25). -/
  pc : Word
  /-- `N`, `Z`, `C`, `V` (R28). -/
  flags : Flags
  /-- The instruction set the word at `pc` is decoded in (R32). -/
  iset : ISet
  /-- `ITSTATE` (R33). -/
  it : BitVec 8
  /-- `CPSR.DIT` (R30); no rule reads it (R148). -/
  dit : Bool
  /-- `MEM` (R34). -/
  mem : Memory
  /-- None or the exception that was taken, never cleared once set (R38, R128). -/
  fault : Option Fault
  /-- The launch parameters (R37). -/
  params : Config.Params
  /-- THE MODEL'S OWN (log entry 10): how many free values have been drawn. -/
  draws : Nat
  deriving DecidableEq, Repr

/-- The state after reset. The spec defines no reset and states no value (R35, R140): every value here is named in a
log entry (1 to 12). -/
def State.reset : State where
  regs := Vector.replicate 15 0
  pc := 0
  flags := ⟨false, false, false, false⟩
  iset := .a32
  it := 0
  dit := false
  mem := []
  fault := none
  params :=
    { memAdmit := [⟨0, 0xFFFFFFFF, .dataRead⟩, ⟨0, 0xFFFFFFFF, .fetch⟩]
      cuWback := .fixed .loadBaseUnknown
      abortCorruptsBase := false
      undefIgnoresCond := true
      haltPc := none }
  draws := 0

end Sys2Proof.Machine
end

