-- ==== Sys2Proof/Machine/Flags.lean ====
section
/-! DEFINITION. The condition an instruction runs under: the flag table of spec/10_state.md R29 and
`ITSTATE` (R33). The instruction computes no flag (R112), so there is no flag computation to define. -/
namespace Sys2Proof.Machine

/-- `CondHolds(c)`, the table of R29. -/
def condHolds (c : Cond) (f : Flags) : Bool :=
  match c with
  | .eq => f.z
  | .ne => !f.z
  | .cs => f.c
  | .cc => !f.c
  | .mi => f.n
  | .pl => !f.n
  | .vs => f.v
  | .vc => !f.v
  | .hi => f.c && !f.z
  | .ls => !f.c || f.z
  | .ge => f.n == f.v
  | .lt => f.n != f.v
  | .gt => !f.z && f.n == f.v
  | .le => f.z || f.n != f.v
  | .al => true

/-- `CurrentCond()` in T32 (R33): `it[7:4]` inside a block, `1110` outside one; none when `it` is not
legal. -/
def itCond (it : BitVec 8) : Option Cond :=
  if it.extractLsb' 0 4 ≠ 0#4 then Cond.ofBits (it.extractLsb' 4 4)
  else if it = 0#8 then some .al
  else none

/-- `it` is legal for `iset` (R33): zero in A32, one that gives a condition in T32. -/
def itLegal (s : ISet) (it : BitVec 8) : Bool :=
  match s with
  | .a32 => it == 0#8
  | .t32 => (itCond it).isSome

/-- `ITAdvance()` (R33): the end of the block, or `it[4:0]` shifted left by one with `it[7:5]`
unchanged. -/
def itAdvance (it : BitVec 8) : BitVec 8 :=
  if it.extractLsb' 0 3 = 0#3 then 0#8
  else it.extractLsb' 5 3 ++ (it.extractLsb' 0 5 <<< 1)

/-- What `it` is after an instruction that completes with outcome `next` (R33, R110). -/
def itAfter (s : ISet) (it : BitVec 8) : BitVec 8 :=
  match s with
  | .a32 => it
  | .t32 => itAdvance it

end Sys2Proof.Machine
end

