-- ==== Sys2Proof/Machine/Operands.lean ====
section
/-! DEFINITION. Operands: register numbers, immediates, the six values a decoding gives
(spec/40_ldrsb_immediate.md R91) and the address arithmetic of the three addressing forms (R92, R93). -/
namespace Sys2Proof.Machine

/-- The general register a 4-bit field selects (R10, R20): 0 to 14; none for `1111`, which no defined
behaviour reads or writes (R23). -/
def gp? (r : BitVec 4) : Option RegNum :=
  if h : r.toNat < 15 then some ⟨r.toNat, h⟩ else none

/-- `zext_32(v)` (R11). -/
def zext32 {m : Nat} (v : BitVec m) : Word := v.setWidth 32

/-- `sext_32(b)` (R12): the byte with 24 copies of its bit 7 above it. -/
def sext32 (b : Byte) : Word := b.signExtend 32

/-- The decode outputs of R91. -/
structure Operands where
  t : RegNum
  n : RegNum
  imm32 : Word
  index : Bool
  add : Bool
  wback : Bool
  deriving DecidableEq, Repr

/-- Class A1 (R81, R91): `wback = (P == '0') || (W == '1')`. -/
def operandsA1 (p u w : Bool) (n t : RegNum) (imm8 : BitVec 8) : Operands :=
  { t, n, imm32 := zext32 imm8, index := p, add := u, wback := !p || w }

/-- Class T1 (R81, R91). -/
def operandsT1 (n t : RegNum) (imm12 : BitVec 12) : Operands :=
  { t, n, imm32 := zext32 imm12, index := true, add := true, wback := false }

/-- Class T2 (R81, R91): `wback = (W == '1')`, not the formula of A1 (spec/90_conflicts.md C4). -/
def operandsT2 (p u w : Bool) (n t : RegNum) (imm8 : BitVec 8) : Operands :=
  { t, n, imm32 := zext32 imm8, index := p, add := u, wback := w }

/-- `offset_addr` (R92, R93): modulo 2^32, no flag. -/
def Operands.offsetAddr (d : Operands) (base : Word) : Word :=
  if d.add then base + d.imm32 else base - d.imm32

/-- `address` (R92). -/
def Operands.address (d : Operands) (base : Word) : Word :=
  if d.index then d.offsetAddr base else base

end Sys2Proof.Machine
end

