-- ==== Sys2Proof/Machine/Ops.lean ====
section
/-! DEFINITION. The operations the meanings share: memory, registers, sequencing, taking an exception,
and the shared Operation of spec/40_ldrsb_immediate.md R92 with its unpredictable cases. -/
namespace Sys2Proof.Machine

/-! ### Memory (spec/20_memory.md R40, R42) -/

/-- What a byte that is not listed reads as (log entry 7): DESIGN CHOICE, unsafe. -/
def unlistedByte : Byte := 0

/-- The canonical form: rising addresses, each inside the address space, no byte that an unlisted
address would give. -/
abbrev Memory.wf (m : Memory) : Prop :=
  (m.map Prod.fst).Pairwise (· < ·) ∧ ∀ c ∈ m, c.1 < 2 ^ 32 ∧ c.2 ≠ unlistedByte

/-- The byte the list gives at an address. -/
def Memory.readAt : Memory → Nat → Byte
  | [], _ => unlistedByte
  | (a, b) :: rest, x => if a = x then b else Memory.readAt rest x

/-- `MEM[addr]` (R34). -/
def Memory.read (m : Memory) (a : Word) : Byte := m.readAt a.toNat

/-- The list with the byte at an address changed; the byte an unlisted address gives is not listed. -/
def Memory.writeAt : Memory → Nat → Byte → Memory
  | [], x, v => if v = unlistedByte then [] else [(x, v)]
  | (a, b) :: rest, x, v =>
    if x < a then
      if v = unlistedByte then (a, b) :: rest else (x, v) :: (a, b) :: rest
    else if x = a then
      if v = unlistedByte then rest else (x, v) :: rest
    else (a, b) :: Memory.writeAt rest x v

/-- A byte of memory changed. No instruction does this (R43); a program is placed with it (log
entry 18). -/
def Memory.write (m : Memory) (a : Word) (v : Byte) : Memory := m.writeAt a.toNat v

/-- `MEM_ADMIT(addr, kind)` (R47). -/
def admits (p : Config.Params) (a : Word) (k : Config.AccessKind) : Bool :=
  p.memAdmit.any fun w => w.kind == k && decide (w.first ≤ a) && decide (a ≤ w.last)

/-- `MemRead(addr, 1)` (R42): the byte, or none where the read raises `DataAbort(addr)`. It changes
no state (R48). -/
def memRead (s : State) (a : Word) : Option Byte :=
  if admits s.params a .dataRead then some (s.mem.read a) else none

/-! ### Registers (spec/00_scope.md R13) -/

/-- `x[i]`. -/
def State.x (s : State) (i : RegNum) : Word := s.regs[i.val]

/-- `x[i] <- v`. -/
def State.setX (s : State) (i : RegNum) (v : Word) : State :=
  { s with regs := s.regs.set i.val v }

/-! ### Sequencing -/

/-- After an instruction that completes with outcome `next` (R26, R110): `pc <- (pc + 4) mod 2^32`,
and in T32 `ITSTATE` advances. -/
def State.advance (s : State) : State :=
  { s with pc := s.pc + 4, it := itAfter s.iset s.it }

/-- One more free value has been drawn (log entry 10). -/
def State.drawn (s : State) : State := { s with draws := s.draws + 1 }

/-! ### Exceptions (spec/60_exceptions.md R128)

There is no return from exception: the spec has none (R129). -/

/-- `raise E(info)`: sets the state's `fault`, changes nothing else; `pc` still addresses the faulting
instruction (R128). The next step stops with the fault (R116). -/
def takeException (f : Fault) (s : State) : Host.Outcome State Fault Refusal :=
  .next { s with fault := some f }

/-! ### The shared Operation (spec/40_ldrsb_immediate.md R92 to R96) -/

/-- The body of R92 once the condition passed: the base read once, the byte read, then the two
register writes; a read that is not admitted takes the Data Abort before any register is written
(R96). -/
def transfer (d : Operands) (s : State) : Host.Outcome State Fault Refusal :=
  let base := s.x d.n
  match memRead s (d.address base) with
  | none => takeException (.dataAbort (d.address base)) s
  | some b =>
    let loaded := s.setX d.t (sext32 b)
    .next (if d.wback then loaded.setX d.n (d.offsetAddr base) else loaded).advance

/-- Option (3) of R108 once the condition passed: the load is performed at the address of R92 and the
register written back, `n`, which is also `t`, holds an UNKNOWN value, "not the loaded value and not
`offset_addr`". A read that is not admitted takes the Data Abort, which writes no register (R128, D26); only
where the launch says that it corrupts the base does `n` hold an UNKNOWN value before it (R108, log entry
14). -/
def transferUnknown (d : Operands) (s : State) : Host.Outcome State Fault Refusal :=
  let base := s.x d.n
  let t := (s.setX d.n (Config.unknownWord s.draws)).drawn
  match memRead s (d.address base) with
  | none =>
    takeException (.dataAbort (d.address base)) (if s.params.abortCorruptsBase then t else s)
  | some _ => .next t.advance

/-! ### UNDEFINED and UNPREDICTABLE words -/

/-- Whether the condition passed, handed on; an `ITSTATE` that gives no condition is refused (R33). -/
def withCond (c : Option Cond) (s : State) (k : Bool → Host.Outcome State Fault Refusal) :
    Host.Outcome State Fault Refusal :=
  match c with
  | none => .refused .illegalItstate
  | some c => k (condHolds c s.flags)

/-- An UNDEFINED or UNPREDICTABLE word acts as such whether or not its condition passed (R109), unless
the launch takes `UNDEF_IGNORES_COND` FALSE, under which a failed condition makes it a no-op (D16). -/
def unlessHidden (s : State) (passed : Bool) (act : Host.Outcome State Fault Refusal) :
    Host.Outcome State Fault Refusal :=
  if s.params.undefIgnoresCond || passed then act else .next s.advance

/-- UNPREDICTABLE with no listed outcome (R104, R106): no next state (D13). -/
def unpredictable (r : UnpredictableReason) (c : Option Cond) (s : State) :
    Host.Outcome State Fault Refusal :=
  withCond c s fun passed => unlessHidden s passed (.fault (.unpredictable r))

/-- UNDEFINED (R80, R120): the Undefined Instruction exception with the word. -/
def undefinedInstruction (w : Word) (c : Option Cond) (s : State) :
    Host.Outcome State Fault Refusal :=
  withCond c s fun passed => unlessHidden s passed (takeException (.undefinedInstruction w) s)

/-- One of the three permitted outcomes of R108. -/
def permitted (o : Config.CuOutcome) (w : Word) (passed : Bool) (d : Operands) (s : State) :
    Host.Outcome State Fault Refusal :=
  match o with
  | .undef => takeException (.undefinedInstruction w) s
  | .nop => .next s.advance
  | .loadBaseUnknown => if passed then transferUnknown d s else .next s.advance

/-- `wback && n == t` (R105, R107, R108), by the launch's `CU_WBACK_N_EQ_T`. -/
def constrained (w : Word) (passed : Bool) (d : Operands) (s : State) :
    Host.Outcome State Fault Refusal :=
  unlessHidden s passed
    (match s.params.cuWback with
     | .specFault => .fault (.unpredictable .wbackNEqT)
     | .fixed o => permitted o w passed d s
     | .drawn => permitted (Config.cuDraw s.draws) w passed d s.drawn)

/-- The whole instruction, for every encoding, from its word, its condition and its decode outputs
(R92, R108, R109): `wback && n == t` is CONSTRAINED UNPREDICTABLE; otherwise a failed condition does
nothing but R110. -/
def loadSignedByte (w : Word) (c : Option Cond) (d : Operands) (s : State) :
    Host.Outcome State Fault Refusal :=
  withCond c s fun passed =>
    if d.wback = true ∧ d.n = d.t then constrained w passed d s
    else if passed then transfer d s
    else .next s.advance

end Sys2Proof.Machine
end

