-- ==== Sys2Proof/Machine/LoadA1.lean ====
section
/-! DEFINITION. Class A1: the three A32 encodings (spec/40_ldrsb_immediate.md R97 to R99, R104,
R105). -/
namespace Sys2Proof.Machine

/-- The A1 Decode steps after which the operation runs (spec/30_encoding.md R81): `Rn == '1111'` is
another instruction, then `t == 15` is UNPREDICTABLE (R104), whatever the form. -/
def runA1 (word : Word) (cond : Cond) (p u w : Bool) (rn rt : BitVec 4) (imm8 : BitVec 8)
    (s : State) : Host.Outcome State Fault Refusal :=
  match gp? rn with
  | none => .refused .seeLdrsbLiteral
  | some n =>
    match gp? rt with
    | none => unpredictable .a1Rt15 (some cond) s
    | some t => loadSignedByte word (some cond) (operandsA1 p u w n t imm8) s

/-- `LDRSB_i_A1_off` (R97): `P == 1 && W == 0` (R70). -/
def execLdrsbA1Off (cond : Cond) (u : Bool) (rn rt : BitVec 4) (imm8 : BitVec 8) (s : State) :
    Host.Outcome State Fault Refusal :=
  runA1 (encode (.ldrsbA1Off cond u rn rt imm8)) cond true u false rn rt imm8 s

/-- `LDRSB_i_A1_post` (R98): `P == 0 && W == 0` (R71). -/
def execLdrsbA1Post (cond : Cond) (u : Bool) (rn rt : BitVec 4) (imm8 : BitVec 8) (s : State) :
    Host.Outcome State Fault Refusal :=
  runA1 (encode (.ldrsbA1Post cond u rn rt imm8)) cond false u false rn rt imm8 s

/-- `LDRSB_i_A1_pre` (R99): `P == 1 && W == 1` (R72). -/
def execLdrsbA1Pre (cond : Cond) (u : Bool) (rn rt : BitVec 4) (imm8 : BitVec 8) (s : State) :
    Host.Outcome State Fault Refusal :=
  runA1 (encode (.ldrsbA1Pre cond u rn rt imm8)) cond true u true rn rt imm8 s

end Sys2Proof.Machine
end

