-- ==== Sys2Proof/Machine/LoadT1.lean ====
section
/-! DEFINITION. Class T1: the T32 offset form with a 12-bit immediate (spec/40_ldrsb_immediate.md
R100). -/
namespace Sys2Proof.Machine

/-- `LDRSB_i_T1` (R100), under the condition `ITSTATE` gives (spec/10_state.md R33). `Rt == '1111'` is
`PLI` and `Rn == '1111'` is `LDRSB (literal)`, tested in that order (spec/30_encoding.md R81); there is
no UNPREDICTABLE case. -/
def execLdrsbT1 (rn rt : BitVec 4) (imm12 : BitVec 12) (s : State) :
    Host.Outcome State Fault Refusal :=
  match gp? rt with
  | none => .refused .seePli
  | some t =>
    match gp? rn with
    | none => .refused .seeLdrsbLiteral
    | some n =>
      loadSignedByte (encode (.ldrsbT1 rn rt imm12)) (itCond s.it) (operandsT1 n t imm12) s

end Sys2Proof.Machine
end

