-- ==== Sys2Proof/Machine/LoadT2.lean ====
section
/-! DEFINITION. Class T2: the three T32 encodings with an 8-bit immediate
(spec/40_ldrsb_immediate.md R101 to R103, R106, R107). -/
namespace Sys2Proof.Machine

/-- `LDRSB_i_T2_off` (R101): `P, U, W = 1, 0, 0` (R74). `Rt == '1111'` is `PLI`, tested before
`Rn == '1111'` (spec/30_encoding.md R81); there is no UNPREDICTABLE case. -/
def execLdrsbT2Off (rn rt : BitVec 4) (imm8 : BitVec 8) (s : State) :
    Host.Outcome State Fault Refusal :=
  match gp? rt with
  | none => .refused .seePli
  | some t =>
    match gp? rn with
    | none => .refused .seeLdrsbLiteral
    | some n =>
      loadSignedByte (encode (.ldrsbT2Off rn rt imm8)) (itCond s.it)
        (operandsT2 true false false n t imm8) s

/-- The T2 Decode steps of the write-back forms (R81): `Rn == '1111'` is another instruction, then
`t == 15 && W == '1'` is UNPREDICTABLE (R106). -/
def runT2Wback (word : Word) (p u : Bool) (rn rt : BitVec 4) (imm8 : BitVec 8) (s : State) :
    Host.Outcome State Fault Refusal :=
  match gp? rn with
  | none => .refused .seeLdrsbLiteral
  | some n =>
    match gp? rt with
    | none => unpredictable .t2Rt15W (itCond s.it) s
    | some t => loadSignedByte word (itCond s.it) (operandsT2 p u true n t imm8) s

/-- `LDRSB_i_T2_post` (R102): `P == 0 && W == 1` (R75). -/
def execLdrsbT2Post (u : Bool) (rn rt : BitVec 4) (imm8 : BitVec 8) (s : State) :
    Host.Outcome State Fault Refusal :=
  runT2Wback (encode (.ldrsbT2Post u rn rt imm8)) false u rn rt imm8 s

/-- `LDRSB_i_T2_pre` (R103): `P == 1 && W == 1` (R76). -/
def execLdrsbT2Pre (u : Bool) (rn rt : BitVec 4) (imm8 : BitVec 8) (s : State) :
    Host.Outcome State Fault Refusal :=
  runT2Wback (encode (.ldrsbT2Pre u rn rt imm8)) true u rn rt imm8 s

end Sys2Proof.Machine
end

