-- ==== Sys2Proof/Machine/Redirected.lean ====
section
/-! DEFINITION. The rows that are not `LDRSB (immediate)`: the UNDEFINED pattern of class T2, which takes
an exception, and the words the page sends to another instruction, which the spec refuses
(spec/30_encoding.md R77 to R80). -/
namespace Sys2Proof.Machine

/-- `T2_P0_W0` (R80, R120): `raise UndefinedInstruction(w)` with `w` the word. -/
def execUndefinedT2 (u : Bool) (rn rt : BitVec 4) (imm8 : BitVec 8) (s : State) :
    Host.Outcome State Fault Refusal :=
  undefinedInstruction (encode (.undefinedT2 u rn rt imm8)) (itCond s.it) s

/-- `A1_P0_W1` (R79): "`LDRSBT` is out of scope: the model does `refuse(SeeLdrsbt)`". -/
def execSeeLdrsbtA1 (_cond : Cond) (_u : Bool) (_rn _rt : BitVec 4) (_imm8 : BitVec 8) (_s : State) :
    Host.Outcome State Fault Refusal :=
  .refused .seeLdrsbt

/-- `T2_P1_U1_W0` (R79). -/
def execSeeLdrsbtT2 (_rn _rt : BitVec 4) (_imm8 : BitVec 8) (_s : State) :
    Host.Outcome State Fault Refusal :=
  .refused .seeLdrsbt

/-- `T1_Rt15` (R78): "`PLI` is out of scope: the model does `refuse(SeePli)`". -/
def execSeePliT1 (_rn : BitVec 4) (_imm12 : BitVec 12) (_s : State) :
    Host.Outcome State Fault Refusal :=
  .refused .seePli

/-- `T2_Rt15_P1_U0_W0` (R78). -/
def execSeePliT2 (_rn : BitVec 4) (_imm8 : BitVec 8) (_s : State) :
    Host.Outcome State Fault Refusal :=
  .refused .seePli

/-- `A1_Rn15` (R77): "`LDRSB (literal)` is out of scope: the model does `refuse(SeeLdrsbLiteral)`". -/
def execSeeLiteralA1 (_cond : Cond) (_p _u _w : Bool) (_rt : BitVec 4) (_imm8 : BitVec 8)
    (_s : State) : Host.Outcome State Fault Refusal :=
  .refused .seeLdrsbLiteral

/-- `T1_Rn15` (R77). -/
def execSeeLiteralT1 (_rt : BitVec 4) (_imm12 : BitVec 12) (_s : State) :
    Host.Outcome State Fault Refusal :=
  .refused .seeLdrsbLiteral

/-- `T2_Rn15` (R77). -/
def execSeeLiteralT2 (_p _u _w : Bool) (_rt : BitVec 4) (_imm8 : BitVec 8) (_s : State) :
    Host.Outcome State Fault Refusal :=
  .refused .seeLdrsbLiteral

end Sys2Proof.Machine
end

