-- ==== Sys2Proof/Machine/Dispatch.lean ====
section
/-! DEFINITION. One arm per instruction, each one call of its meaning. -/
namespace Sys2Proof.Machine

def exec (i : Instr) (s : State) : Host.Outcome State Fault Refusal :=
  match i with
  | .ldrsbA1Off cond u rn rt imm8 => Sys2Proof.Machine.execLdrsbA1Off cond u rn rt imm8 s
  | .ldrsbA1Post cond u rn rt imm8 => Sys2Proof.Machine.execLdrsbA1Post cond u rn rt imm8 s
  | .ldrsbA1Pre cond u rn rt imm8 => Sys2Proof.Machine.execLdrsbA1Pre cond u rn rt imm8 s
  | .ldrsbT1 rn rt imm12 => Sys2Proof.Machine.execLdrsbT1 rn rt imm12 s
  | .ldrsbT2Off rn rt imm8 => Sys2Proof.Machine.execLdrsbT2Off rn rt imm8 s
  | .ldrsbT2Post u rn rt imm8 => Sys2Proof.Machine.execLdrsbT2Post u rn rt imm8 s
  | .ldrsbT2Pre u rn rt imm8 => Sys2Proof.Machine.execLdrsbT2Pre u rn rt imm8 s
  | .undefinedT2 u rn rt imm8 => Sys2Proof.Machine.execUndefinedT2 u rn rt imm8 s
  | .seeLdrsbtA1 cond u rn rt imm8 => Sys2Proof.Machine.execSeeLdrsbtA1 cond u rn rt imm8 s
  | .seeLdrsbtT2 rn rt imm8 => Sys2Proof.Machine.execSeeLdrsbtT2 rn rt imm8 s
  | .seePliT1 rn imm12 => Sys2Proof.Machine.execSeePliT1 rn imm12 s
  | .seePliT2 rn imm8 => Sys2Proof.Machine.execSeePliT2 rn imm8 s
  | .seeLiteralA1 cond p u w rt imm8 => Sys2Proof.Machine.execSeeLiteralA1 cond p u w rt imm8 s
  | .seeLiteralT1 rt imm12 => Sys2Proof.Machine.execSeeLiteralT1 rt imm12 s
  | .seeLiteralT2 p u w rt imm8 => Sys2Proof.Machine.execSeeLiteralT2 p u w rt imm8 s

end Sys2Proof.Machine
end

