-- ==== Sys2Proof/Machine/Fetch.lean ====
section
/-! DEFINITION. The part of a step before the instruction runs (spec/40_ldrsb_immediate.md R116):
the checks, the fetch (spec/20_memory.md R56 to R58) and the decoding; and placing a word where the
fetch finds it. -/
namespace Sys2Proof.Machine

/-- `pc` is aligned for `iset` (spec/10_state.md R27): `pc[1:0] == '00'` in A32, `pc[0] == '0'` in
T32. -/
def pcAligned (s : ISet) (pc : Word) : Bool :=
  match s with
  | .a32 => pc.extractLsb' 0 2 == 0#2
  | .t32 => pc.extractLsb' 0 1 == 0#1

/-- `pc >= 0xFFFFFFFC` (R27). -/
def pcWraps (pc : Word) : Bool := decide (0xFFFFFFFC#32 ≤ pc)

/-- Each of the four bytes `pc` to `pc+3` is admitted for `Fetch` (R58). -/
def fetchAdmitted (p : Config.Params) (pc : Word) : Bool :=
  admits p pc .fetch && admits p (pc + 1) .fetch && admits p (pc + 2) .fetch
    && admits p (pc + 3) .fetch

/-- The word at `pc` (R56, R57). -/
def fetchWord (s : State) : Word :=
  wordOfBytes s.iset (s.mem.read s.pc) (s.mem.read (s.pc + 1)) (s.mem.read (s.pc + 2))
    (s.mem.read (s.pc + 3))

/-- A word outside the three classes is refused: the spec gives no other instruction a meaning (R58). -/
def ofDecoded : Decoded → Host.Outcome Instr Fault Refusal
  | .instr i => .next i
  | .notLdrsbImmediate => .refused .notLdrsbImmediate

/-- A step up to its instruction, in the order of R116: the instruction to run, or the reason there is no
step. A recorded fault stops the machine; at `HALT_PC` the run is over and nothing is fetched (R143). -/
def fetchInstr (s : State) : Host.Outcome Instr Fault Refusal :=
  match s.fault with
  | some f => .fault f
  | none =>
    if s.params.haltPc = some s.pc then .refused .runOver
    else if pcAligned s.iset s.pc = false then .refused .misalignedPc
    else if itLegal s.iset s.it = false then .refused .illegalItstate
    else if pcWraps s.pc then .fault .pcWrap
    else if fetchAdmitted s.params s.pc = false then .fault (.fetchFault s.pc)
    else ofDecoded (decode s.iset (fetchWord s))

/-! ### Placing a program's word (log entry 18) -/

/-- Memory with the four bytes of a word at `pc` and after, as the fetch reads them. -/
def Memory.writeWord (m : Memory) (s : ISet) (pc w : Word) : Memory :=
  (((m.write pc (byteOfWord s w 0)).write (pc + 1) (byteOfWord s w 1)).write (pc + 2)
    (byteOfWord s w 2)).write (pc + 3) (byteOfWord s w 3)

/-- The state with a word where the next step fetches it, and with what else a launch needs for that step
to run it (spec/70_reset_and_hazards.md R142): the instruction set of the word, an `ITSTATE` legal for it,
an aligned `pc` below the top, the four bytes admitted for `Fetch`, no end of the run there and no
recorded fault. What already fits is left as it is. -/
def placeWord (s : State) (iset : ISet) (w : Word) : State :=
  let pc := if pcAligned iset s.pc && !pcWraps s.pc then s.pc else 0
  { s with
    iset
    it := if itLegal iset s.it then s.it else 0
    pc
    mem := s.mem.writeWord iset pc w
    fault := none
    params :=
      { s.params with
        memAdmit :=
          if fetchAdmitted s.params pc then s.params.memAdmit
          else s.params.memAdmit ++ [⟨pc, pc + 3, .fetch⟩]
        haltPc := if s.params.haltPc = some pc then none else s.params.haltPc } }

end Sys2Proof.Machine
end

