-- ==== Sys2Proof/Machine/Step.lean ====
section
/-! DEFINITION. One step of the machine (spec/40_ldrsb_immediate.md R116), and how a word is placed for
it. -/
namespace Sys2Proof.Machine

/-- One step (R116): the instruction the fetch gives, executed; `pc` and `ITSTATE` advance inside the
meaning, since a taken exception leaves them (R26, R128). -/
def step (s : State) : Host.Outcome State Fault Refusal :=
  match fetchInstr s with
  | .next i => exec i s
  | .fault f => .fault f
  | .refused r => .refused r

/-- The state with a word of spec/opcode_table.json (low `nbits` bits of `w`) where `step` fetches its
next instruction (log entry 18). -/
def State.withFetchWord (s : State) (nbits w : Nat) : State :=
  placeWord s (tableSet (tableWord nbits w)) (tableWord nbits w)

end Sys2Proof.Machine
end

