-- ==== Sys2Proof/WellFormed.lean ====
section
/-! DEFINITION. Which terms of `Instr` are rows of the table with their constraints met
(spec/opcode_table.json "constraints", spec/30_encoding.md R70 to R80), and which are instructions
with defined behaviour (R145). -/
namespace Sys2Proof

/-- The constraints of the instruction's row: `Rn != 1111` where the row is not the `Rn == 1111` row
itself, `Rt != 1111` for the two encodings the diagram says it of, and, in the row
`T2_Rn15`, not the pattern that `SEE "PLI"` takes first (R78, R81). -/
def Instr.wellFormed : Instr → Bool
  | .ldrsbA1Off _ _ rn _ _ => rn != 15
  | .ldrsbA1Post _ _ rn _ _ => rn != 15
  | .ldrsbA1Pre _ _ rn _ _ => rn != 15
  | .ldrsbT1 rn rt _ => rn != 15 && rt != 15
  | .ldrsbT2Off rn rt _ => rn != 15 && rt != 15
  | .ldrsbT2Post _ rn _ _ => rn != 15
  | .ldrsbT2Pre _ rn _ _ => rn != 15
  | .undefinedT2 _ rn _ _ => rn != 15
  | .seeLdrsbtA1 _ _ rn _ _ => rn != 15
  | .seeLdrsbtT2 rn _ _ => rn != 15
  | .seePliT1 _ _ => true
  | .seePliT2 _ _ => true
  | .seeLiteralA1 .. => true
  | .seeLiteralT1 rt _ => rt != 15
  | .seeLiteralT2 p u w rt _ => !(rt == 15 && p && !u && !w)

/-- The `LDRSB (immediate)` instructions whose behaviour is defined: the operands of R97 to R103
(`Rt`, `Rn` in 0..14, and `Rt != Rn` in the write-back forms); the rule software must follow, R145. -/
def Instr.predictable : Instr → Bool
  | .ldrsbA1Off _ _ rn rt _ => rn != 15 && rt != 15
  | .ldrsbA1Post _ _ rn rt _ => rn != 15 && rt != 15 && rt != rn
  | .ldrsbA1Pre _ _ rn rt _ => rn != 15 && rt != 15 && rt != rn
  | .ldrsbT1 rn rt _ => rn != 15 && rt != 15
  | .ldrsbT2Off rn rt _ => rn != 15 && rt != 15
  | .ldrsbT2Post _ rn rt _ => rn != 15 && rt != 15 && rt != rn
  | .ldrsbT2Pre _ rn rt _ => rn != 15 && rt != 15 && rt != rn
  | .undefinedT2 .. => false
  | .seeLdrsbtA1 .. => false
  | .seeLdrsbtT2 .. => false
  | .seePliT1 .. => false
  | .seePliT2 .. => false
  | .seeLiteralA1 .. => false
  | .seeLiteralT1 .. => false
  | .seeLiteralT2 .. => false

end Sys2Proof
end

