-- ==== Sys2Proof/Machine/Assembly.lean ====
section
/-! DEFINITION. The assembler syntax of the seven encodings (spec/30_encoding.md R84 to R89): a source
line, the encoding it picks, the line of an instruction, and a line's text. Log entry 20. -/
namespace Sys2Proof

/-- The optional sign (plus or minus) of an offset (R87). -/
inductive Sign where
  | plus
  | minus
  deriving DecidableEq, Repr

/-- `#<sign><imm>`; a minus sign with a zero immediate is a distinct operand (R87). -/
structure AsmOffset where
  sign : Option Sign
  imm : Nat
  deriving DecidableEq, Repr

/-- `[<Rn> {, #<sign><imm>}]`, `[<Rn>], #<sign><imm>` and `[<Rn>, #<sign><imm>]!` (R85, R86): only the
offset form may leave the immediate out (spec/90_conflicts.md C2). -/
inductive AsmAddress where
  | offset (o : Option AsmOffset)
  | postIndexed (o : AsmOffset)
  | preIndexed (o : AsmOffset)
  deriving DecidableEq, Repr

/-- `<q>`: `.W` or `.N` (R84). -/
inductive Qualifier where
  | wide
  | narrow
  deriving DecidableEq, Repr

/-- One source line, `LDRSB{<c>}{<q>} <Rt>, …` (R85, R86). -/
structure AsmLine where
  cond : Option Cond
  q : Option Qualifier
  rt : BitVec 4
  rn : BitVec 4
  addr : AsmAddress
  deriving DecidableEq, Repr

/-- "defaulting to + if omitted" (R87). -/
def AsmOffset.add (o : AsmOffset) : Bool := o.sign != some .minus

/-- The A1 encoding the addressing form picks (R88): the sign picks `U`, an omitted offset is `U = 1`,
immediate 0; the immediate lies in 0 to 255 (R67). -/
def candidateA32 (l : AsmLine) : Option Instr :=
  let c := l.cond.getD .al
  match l.addr with
  | .offset none => some (.ldrsbA1Off c true l.rn l.rt 0)
  | .offset (some o) =>
    if o.imm ≤ 255 then some (.ldrsbA1Off c o.add l.rn l.rt (BitVec.ofNat 8 o.imm)) else none
  | .postIndexed o =>
    if o.imm ≤ 255 then some (.ldrsbA1Post c o.add l.rn l.rt (BitVec.ofNat 8 o.imm)) else none
  | .preIndexed o =>
    if o.imm ≤ 255 then some (.ldrsbA1Pre c o.add l.rn l.rt (BitVec.ofNat 8 o.imm)) else none

/-- The T32 encoding (R88): a post- or pre-indexed form is T2 (0 to 255, either sign); the offset form
with `+` or no sign and 0 to 4095 is T1, with `-` and 0 to 255 is T2 offset; an omitted offset is T1
(spec/90_conflicts.md C3). -/
def candidateT32 (l : AsmLine) : Option Instr :=
  match l.addr with
  | .offset none => some (.ldrsbT1 l.rn l.rt 0)
  | .offset (some o) =>
    if o.add then
      if o.imm ≤ 4095 then some (.ldrsbT1 l.rn l.rt (BitVec.ofNat 12 o.imm)) else none
    else if o.imm ≤ 255 then some (.ldrsbT2Off l.rn l.rt (BitVec.ofNat 8 o.imm)) else none
  | .postIndexed o =>
    if o.imm ≤ 255 then some (.ldrsbT2Post o.add l.rn l.rt (BitVec.ofNat 8 o.imm)) else none
  | .preIndexed o =>
    if o.imm ≤ 255 then some (.ldrsbT2Pre o.add l.rn l.rt (BitVec.ofNat 8 o.imm)) else none

/-- The instruction a line assembles to, in an instruction set and, in T32, under the condition
`current` that `ITSTATE` gives it, with which `<c>` must agree (R84). `.N` can never be honoured (R84);
the operands are those of R97 to R103, as software must write them (R145). -/
def assemble (s : ISet) (current : Cond) (l : AsmLine) : Option Instr :=
  if l.q = some .narrow then none
  else
    match s with
    | .a32 => (candidateA32 l).filter Instr.predictable
    | .t32 =>
      if l.cond.getD .al = current then (candidateT32 l).filter Instr.predictable else none

/-- The sign that encodes as `U` (R87: `U = 0` is `-`, `U = 1` is `+`). -/
def signOf (u : Bool) : Sign := if u then .plus else .minus

/-- The line of a defined `LDRSB` instruction, every part written out; none for the rows that are no
`LDRSB (immediate)`. -/
def lineOf (current : Cond) : Instr → Option AsmLine
  | .ldrsbA1Off c u rn rt imm8 =>
    some ⟨some c, none, rt, rn, .offset (some ⟨some (signOf u), imm8.toNat⟩)⟩
  | .ldrsbA1Post c u rn rt imm8 =>
    some ⟨some c, none, rt, rn, .postIndexed ⟨some (signOf u), imm8.toNat⟩⟩
  | .ldrsbA1Pre c u rn rt imm8 =>
    some ⟨some c, none, rt, rn, .preIndexed ⟨some (signOf u), imm8.toNat⟩⟩
  | .ldrsbT1 rn rt imm12 =>
    some ⟨some current, none, rt, rn, .offset (some ⟨some .plus, imm12.toNat⟩)⟩
  | .ldrsbT2Off rn rt imm8 =>
    some ⟨some current, none, rt, rn, .offset (some ⟨some .minus, imm8.toNat⟩)⟩
  | .ldrsbT2Post u rn rt imm8 =>
    some ⟨some current, none, rt, rn, .postIndexed ⟨some (signOf u), imm8.toNat⟩⟩
  | .ldrsbT2Pre u rn rt imm8 =>
    some ⟨some current, none, rt, rn, .preIndexed ⟨some (signOf u), imm8.toNat⟩⟩
  | .undefinedT2 .. => none
  | .seeLdrsbtA1 .. => none
  | .seeLdrsbtT2 .. => none
  | .seePliT1 .. => none
  | .seePliT2 .. => none
  | .seeLiteralA1 .. => none
  | .seeLiteralT1 .. => none
  | .seeLiteralT2 .. => none

/-! ### A line's text -/

/-- The suffix of a condition (spec/10_state.md R29). -/
def Cond.suffix : Cond → String
  | .eq => "EQ"
  | .ne => "NE"
  | .cs => "CS"
  | .cc => "CC"
  | .mi => "MI"
  | .pl => "PL"
  | .vs => "VS"
  | .vc => "VC"
  | .hi => "HI"
  | .ls => "LS"
  | .ge => "GE"
  | .lt => "LT"
  | .gt => "GT"
  | .le => "LE"
  | .al => "AL"

/-- The written form of a register, `R0` to `R15` (spec/10_state.md R21). -/
def regText (r : BitVec 4) : String := "R" ++ toString r.toNat

/-- `#<sign><imm>`. -/
def AsmOffset.text (o : AsmOffset) : String :=
  (match o.sign with
   | none => "#"
   | some .plus => "#+"
   | some .minus => "#-") ++ toString o.imm

/-- The text of a line, by the templates of R85 and R86. -/
def AsmLine.text (l : AsmLine) : String :=
  let c := match l.cond with
    | none => ""
    | some c => c.suffix
  let q := match l.q with
    | none => ""
    | some .wide => ".W"
    | some .narrow => ".N"
  let addr := match l.addr with
    | .offset none => "[" ++ regText l.rn ++ "]"
    | .offset (some o) => "[" ++ regText l.rn ++ ", " ++ o.text ++ "]"
    | .postIndexed o => "[" ++ regText l.rn ++ "], " ++ o.text
    | .preIndexed o => "[" ++ regText l.rn ++ ", " ++ o.text ++ "]!"
  "LDRSB" ++ c ++ q ++ " " ++ regText l.rt ++ ", " ++ addr

end Sys2Proof
end

