-- ==== Sys2Proof/Safety.lean ====
section
/-! DEFINITION. What a launch must meet, what counts as a completed run, and the invariant of the
machine. -/
namespace Sys2Proof.Machine

/-- The launch premises (1), (2) and (6) of spec/70_reset_and_hazards.md R142: `pc` aligned for `iset`,
`it` legal for it, no fault recorded. -/
def LaunchLegal (s : State) : Prop :=
  s.fault = none ∧ pcAligned s.iset s.pc = true ∧ itLegal s.iset s.it = true

/-- The conditions under which a step fetches and decodes (spec/40_ldrsb_immediate.md R116): a legal
launch, not at `HALT_PC`, `pc` below `0xFFFFFFFC`, the four bytes admitted. -/
def FetchReady (s : State) : Prop :=
  LaunchLegal s ∧ s.params.haltPc ≠ some s.pc ∧ pcWraps s.pc = false ∧
    fetchAdmitted s.params s.pc = true

/-- A final state (R143): at `HALT_PC` with no fault recorded. A faulted state is never final
(spec/60_exceptions.md R128). -/
def Final (s : State) : Prop :=
  s.fault = none ∧ s.params.haltPc = some s.pc

/-- A run of `k` instructions that ends at `HALT_PC` (R143). -/
def CompletesIn (k : Nat) (s t : State) : Prop :=
  Sys2Proof.core.run k s = .next t ∧ Final t

/-- `it` is legal for `iset` and stays so through `k` advances (spec/10_state.md R33; log entry 25). -/
def itStaysLegal (s : ISet) : Nat → BitVec 8 → Bool
  | 0, it => itLegal s it
  | k + 1, it => itLegal s it && itStaysLegal s k (itAfter s it)

/-- The architectural exceptions of spec/60_exceptions.md R124: the faults a step records. -/
def Fault.isException : Fault → Bool
  | .undefinedInstruction _ => true
  | .dataAbort _ => true
  | .unpredictable _ => false
  | .pcWrap => false
  | .fetchFault _ => false

/-! ### The parts of an instruction, as claims about several encodings name them -/

/-- The condition an instruction runs under (spec/10_state.md R29): its own in A32, the one `ITSTATE`
gives in T32. -/
def condOf (s : State) : Instr → Option Cond
  | .ldrsbA1Off c _ _ _ _ => some c
  | .ldrsbA1Post c _ _ _ _ => some c
  | .ldrsbA1Pre c _ _ _ _ => some c
  | .ldrsbT1 .. => itCond s.it
  | .ldrsbT2Off .. => itCond s.it
  | .ldrsbT2Post .. => itCond s.it
  | .ldrsbT2Pre .. => itCond s.it
  | .undefinedT2 .. => itCond s.it
  | .seeLdrsbtA1 c _ _ _ _ => some c
  | .seeLdrsbtT2 .. => itCond s.it
  | .seePliT1 .. => itCond s.it
  | .seePliT2 .. => itCond s.it
  | .seeLiteralA1 c _ _ _ _ _ => some c
  | .seeLiteralT1 .. => itCond s.it
  | .seeLiteralT2 .. => itCond s.it

/-- The decode outputs of two register fields, where neither is `1111`. -/
def operandsFrom (rn rt : BitVec 4) (f : RegNum → RegNum → Operands) : Option Operands :=
  (gp? rn).bind fun n => (gp? rt).map fun t => f n t

/-- The decode outputs of an `LDRSB (immediate)` neither of whose registers is 15
(spec/40_ldrsb_immediate.md R91); none for any other instruction. -/
def operandsOf : Instr → Option Operands
  | .ldrsbA1Off _ u rn rt imm8 =>
    operandsFrom rn rt fun n t => operandsA1 true u false n t imm8
  | .ldrsbA1Post _ u rn rt imm8 =>
    operandsFrom rn rt fun n t => operandsA1 false u false n t imm8
  | .ldrsbA1Pre _ u rn rt imm8 =>
    operandsFrom rn rt fun n t => operandsA1 true u true n t imm8
  | .ldrsbT1 rn rt imm12 => operandsFrom rn rt fun n t => operandsT1 n t imm12
  | .ldrsbT2Off rn rt imm8 =>
    operandsFrom rn rt fun n t => operandsT2 true false false n t imm8
  | .ldrsbT2Post u rn rt imm8 =>
    operandsFrom rn rt fun n t => operandsT2 false u true n t imm8
  | .ldrsbT2Pre u rn rt imm8 =>
    operandsFrom rn rt fun n t => operandsT2 true u true n t imm8
  | .undefinedT2 .. => none
  | .seeLdrsbtA1 .. => none
  | .seeLdrsbtT2 .. => none
  | .seePliT1 .. => none
  | .seePliT2 .. => none
  | .seeLiteralA1 .. => none
  | .seeLiteralT1 .. => none
  | .seeLiteralT2 .. => none

/-- `wback && n == t` does not hold: the behaviour is not CONSTRAINED UNPREDICTABLE (R105, R107). -/
def Operands.defined (d : Operands) : Prop := ¬ (d.wback = true ∧ d.n = d.t)

/-- The state with `pc` and `ITSTATE` past the instruction (R110), spelled out. -/
def State.past (s : State) : State :=
  { s with
    pc := s.pc + 4
    it := if s.iset = .t32 then itAdvance s.it else s.it }

/-! ### The invariant -/

/-- THE INVARIANT: memory is in its canonical form; `pc` is aligned (R27); `ITSTATE` is legal and stays
legal to the end of its block (R33); a recorded fault is an architectural exception. -/
def Inv (s : State) : Prop :=
  s.mem.wf ∧ pcAligned s.iset s.pc = true ∧ itStaysLegal s.iset 4 s.it = true ∧
    ∀ f, s.fault = some f → f.isException = true

end Sys2Proof.Machine
end

