-- ==== Sys2Proof/Certificates/Slice0/Obligations.lean ====
section
/-! DEFINITION. The statements for the provers. Each docstring names the rules of spec/ it formalises, or
says that a clause is the model's choice and names the log entry. -/

open Sys2Proof Sys2Proof.Machine

/-! ### Encoding and decoding -/

/-- spec/30_encoding.md R61 to R63, R65, R81: an encoded instruction decodes to itself, with every operand
at every value its row admits. -/
def Obligations.DecodeOfEncode : Prop :=
  ∀ i : Instr, i.wellFormed = true → decode i.iset (encode i) = .instr i

/-- R65, R81: a word that decodes is the word of the instruction it decodes to, which is well formed and
of the instruction set it was decoded in: no word has a second meaning. -/
def Obligations.EncodeOfDecode : Prop :=
  ∀ (s : ISet) (w : Word) (i : Instr), decode s w = .instr i →
    encode i = w ∧ i.iset = s ∧ i.wellFormed = true

/-- R66: "The three classes cannot overlap": A1 is tried only in A32, T1 and T2 only in T32; T1 and T2
differ in a fixed bit, bit 23 (R63); two different encodings never share a word. -/
def Obligations.ClassesDoNotOverlap : Prop :=
  (∀ w i, decode .a32 w = .instr i → isA1 w = true) ∧
  (∀ w i, decode .t32 w = .instr i →
    isT1 w = true ∧ w.getLsbD 23 = true ∨ isT2 w = true ∧ w.getLsbD 23 = false) ∧
  (∀ i j : Instr, i.wellFormed = true → j.wellFormed = true → encode i = encode j → i = j)

/-- R82, the map of `P`, `U`, `W` inside a class with `Rn != 1111`, with every other field read from its
place (R61, R63), and the A1 words with `cond == '1111'`, which are outside the class. -/
def Obligations.PUWSelectTheEncoding : Prop :=
  (∀ (w : Word) (c : Cond), isA1 w = true → c.bits = w.extractLsb' 28 4 → w.extractLsb' 16 4 ≠ 15#4 →
    let u := w.getLsbD 23
    let rn := w.extractLsb' 16 4
    let rt := w.extractLsb' 12 4
    let imm8 := w.extractLsb' 8 4 ++ w.extractLsb' 0 4
    decode .a32 w = .instr
      (match w.getLsbD 24, w.getLsbD 21 with
       | false, false => .ldrsbA1Post c u rn rt imm8
       | false, true => .seeLdrsbtA1 c u rn rt imm8
       | true, false => .ldrsbA1Off c u rn rt imm8
       | true, true => .ldrsbA1Pre c u rn rt imm8)) ∧
  (∀ w : Word, isA1 w = true → w.extractLsb' 28 4 = 15#4 → decode .a32 w = .notLdrsbImmediate) ∧
  (∀ w : Word, isT2 w = true → w.extractLsb' 16 4 ≠ 15#4 →
    let rn := w.extractLsb' 16 4
    let rt := w.extractLsb' 12 4
    let imm8 := w.extractLsb' 0 8
    decode .t32 w = .instr
      (match w.getLsbD 10, w.getLsbD 9, w.getLsbD 8 with
       | false, u, false => .undefinedT2 u rn rt imm8
       | false, u, true => .ldrsbT2Post u rn rt imm8
       | true, false, false => if rt = 15#4 then .seePliT2 rn imm8 else .ldrsbT2Off rn rt imm8
       | true, true, false => .seeLdrsbtT2 rn rt imm8
       | true, u, true => .ldrsbT2Pre u rn rt imm8))

/-- Words of spec/95_test_vectors.md section 2, written out from the spec's encodings, decode to the
instructions they stand for. -/
def Obligations.SampleWordsDecode : Prop :=
  decode .a32 0xE1D100D4 = .instr (.ldrsbA1Off .al true 1 0 4) ∧
  decode .a32 0xE05320D1 = .instr (.ldrsbA1Post .al false 3 2 1) ∧
  decode .a32 0xE1F542D3 = .instr (.ldrsbA1Pre .al true 5 4 0x23) ∧
  decode .t32 0xF9932FFF = .instr (.ldrsbT1 3 2 4095) ∧
  decode .t32 0xF9110C04 = .instr (.ldrsbT2Off 1 0 4) ∧
  decode .t32 0xF9110B04 = .instr (.ldrsbT2Post true 1 0 4) ∧
  decode .t32 0xF9110D04 = .instr (.ldrsbT2Pre false 1 0 4) ∧
  decode .t32 0xF9110A04 = .instr (.undefinedT2 true 1 0 4)

/-- R67, R68, R69, R91: the six decode outputs are the values the rules read from the instruction's word:
`t`, `n` and the zero-extended immediate from their fields, `index`, `add`, `wback` from `P`, `U`, `W` by
the formulas of the class. -/
def Obligations.DecodeOutputsComeFromTheFields : Prop :=
  ∀ (i : Instr) (d : Operands), operandsOf i = some d →
    let w := encode i
    d.t.val = (w.extractLsb' 12 4).toNat ∧ d.n.val = (w.extractLsb' 16 4).toNat ∧
    (i.iset = .a32 →
      d.imm32.toNat = (w.extractLsb' 8 4).toNat * 16 + (w.extractLsb' 0 4).toNat ∧
      d.index = w.getLsbD 24 ∧ d.add = w.getLsbD 23 ∧
      d.wback = (!w.getLsbD 24 || w.getLsbD 21)) ∧
    (i.iset = .t32 → isT1 w = true → d.imm32.toNat = (w.extractLsb' 0 12).toNat ∧
      d.index = true ∧ d.add = true ∧ d.wback = false) ∧
    (i.iset = .t32 → isT2 w = true → d.imm32.toNat = (w.extractLsb' 0 8).toNat ∧
      d.index = w.getLsbD 10 ∧ d.add = w.getLsbD 9 ∧ d.wback = w.getLsbD 8)

/-! ### The assembler (spec/30_encoding.md R84 to R88) -/

/-- R85, R86, R88: every defined `LDRSB (immediate)` has a source line, and that line assembles to it,
in its own instruction set and, in T32, under the condition the line is written with. -/
def Obligations.EveryInstructionHasItsLine : Prop :=
  ∀ (i : Instr) (current : Cond), i.predictable = true →
    ∃ l, lineOf current i = some l ∧ assemble i.iset current l = some i

/-- R88, from syntax to encoding. In A32 the addressing form picks the encoding and the sign picks `U`; an
omitted offset is `U = 1`, immediate 0. In T32 post- and pre-indexed are T2; the offset form with `+`
or no sign is T1 up to 4095, with `-` it is T2 offset up to 255, omitted it is T1; a positive offset
never uses T2 offset and a negative one below -255 has no encoding. -/
def Obligations.SyntaxPicksTheEncoding : Prop :=
  ∀ (c : Cond) (q : Option Qualifier) (rt rn : BitVec 4) (sign : Option Sign) (imm : Nat),
    q ≠ some .narrow → rt ≠ 15#4 → rn ≠ 15#4 →
    let u : Bool := sign ≠ some .minus
    (∀ current, assemble .a32 current ⟨some c, q, rt, rn, .offset none⟩ =
      some (.ldrsbA1Off c true rn rt 0)) ∧
    (imm ≤ 255 → ∀ current, assemble .a32 current ⟨some c, q, rt, rn, .offset (some ⟨sign, imm⟩)⟩ =
      some (.ldrsbA1Off c u rn rt (BitVec.ofNat 8 imm))) ∧
    (imm ≤ 255 → rt ≠ rn → ∀ current,
      assemble .a32 current ⟨some c, q, rt, rn, .postIndexed ⟨sign, imm⟩⟩ =
        some (.ldrsbA1Post c u rn rt (BitVec.ofNat 8 imm)) ∧
      assemble .a32 current ⟨some c, q, rt, rn, .preIndexed ⟨sign, imm⟩⟩ =
        some (.ldrsbA1Pre c u rn rt (BitVec.ofNat 8 imm))) ∧
    assemble .t32 c ⟨some c, q, rt, rn, .offset none⟩ = some (.ldrsbT1 rn rt 0) ∧
    (u = true → imm ≤ 4095 → assemble .t32 c ⟨some c, q, rt, rn, .offset (some ⟨sign, imm⟩)⟩ =
      some (.ldrsbT1 rn rt (BitVec.ofNat 12 imm))) ∧
    (u = false → imm ≤ 255 → assemble .t32 c ⟨some c, q, rt, rn, .offset (some ⟨sign, imm⟩)⟩ =
      some (.ldrsbT2Off rn rt (BitVec.ofNat 8 imm))) ∧
    (u = false → 255 < imm →
      assemble .t32 c ⟨some c, q, rt, rn, .offset (some ⟨sign, imm⟩)⟩ = none) ∧
    (imm ≤ 255 → rt ≠ rn →
      assemble .t32 c ⟨some c, q, rt, rn, .postIndexed ⟨sign, imm⟩⟩ =
        some (.ldrsbT2Post u rn rt (BitVec.ofNat 8 imm)) ∧
      assemble .t32 c ⟨some c, q, rt, rn, .preIndexed ⟨sign, imm⟩⟩ =
        some (.ldrsbT2Pre u rn rt (BitVec.ofNat 8 imm)))

/-! ### Conditions (spec/10_state.md R29, R33) -/

/-- R29, `CondHolds`: the fifteen rows of the table, by the 4-bit value; `1111` names no condition. -/
def Obligations.ConditionTable : Prop :=
  (∀ (b : BitVec 4) (c : Cond) (f : Flags), Cond.ofBits b = some c →
    (condHolds c f = true ↔
      b.toNat = 0 ∧ f.z = true ∨ b.toNat = 1 ∧ f.z = false ∨
      b.toNat = 2 ∧ f.c = true ∨ b.toNat = 3 ∧ f.c = false ∨
      b.toNat = 4 ∧ f.n = true ∨ b.toNat = 5 ∧ f.n = false ∨
      b.toNat = 6 ∧ f.v = true ∨ b.toNat = 7 ∧ f.v = false ∨
      b.toNat = 8 ∧ (f.c = true ∧ f.z = false) ∨ b.toNat = 9 ∧ (f.c = false ∨ f.z = true) ∨
      b.toNat = 10 ∧ f.n = f.v ∨ b.toNat = 11 ∧ f.n ≠ f.v ∨
      b.toNat = 12 ∧ (f.z = false ∧ f.n = f.v) ∨ b.toNat = 13 ∧ (f.z = true ∨ f.n ≠ f.v) ∨
      b.toNat = 14)) ∧
  (∀ b : BitVec 4, Cond.ofBits b = none ↔ b = 15#4)

/-- R33: the condition `ITSTATE` gives, in arithmetic: `it[7:4]` when `it[3:0] != 0`, always when
`it == 0`, otherwise none; and its advance: 0 when `it[2:0] == 0`, otherwise `it[4:0]` shifted left by
one with `it[7:5]` unchanged. -/
def Obligations.ItstateConditionAndAdvance : Prop :=
  ∀ it : BitVec 8,
    (it.toNat % 16 ≠ 0 → itCond it = Cond.ofBits (BitVec.ofNat 4 (it.toNat / 16))) ∧
    (it.toNat = 0 → itCond it = some .al) ∧
    (it.toNat % 16 = 0 → it.toNat ≠ 0 → itCond it = none) ∧
    (it.toNat % 8 = 0 → itAdvance it = 0) ∧
    (it.toNat % 8 ≠ 0 → (itAdvance it).toNat = it.toNat / 32 * 32 + it.toNat % 16 * 2)

/-- R33, R116: with the checks before it passed, a step in T32 whose `ITSTATE` gives no condition, and one
in A32 whose `ITSTATE` is not 0, are refused. -/
def Obligations.IllegalItstateIsRefused : Prop :=
  ∀ s : State, s.fault = none → s.params.haltPc ≠ some s.pc → pcAligned s.iset s.pc = true →
    (s.iset = .a32 ∧ s.it ≠ 0 ∨ s.iset = .t32 ∧ itCond s.it = none) →
    step s = .refused .illegalItstate

/-! ### The shared operation -/

/-- R92, for every encoding: with the condition passed the base is read, the byte at `address` is
sign-extended into `x[t]`, and the base is written back; a read that is not admitted takes the Data Abort;
with the condition failed nothing is done. In either case `pc` and `ITSTATE` advance, unless an exception
is taken. -/
def Obligations.SharedOperation : Prop :=
  ∀ (i : Instr) (d : Operands) (c : Cond) (s : State), operandsOf i = some d → d.defined →
    condOf s i = some c →
    let base := s.x d.n
    let offsetAddr := if d.add then base + d.imm32 else base - d.imm32
    let address := if d.index then offsetAddr else base
    exec i s =
      if condHolds c s.flags = true then
        if admits s.params address .dataRead = true then
          let loaded := s.setX d.t ((s.mem.read address).signExtend 32)
          .next (if d.wback then loaded.setX d.n offsetAddr else loaded).past
        else .next { s with fault := some (.dataAbort address) }
      else .next s.past

/-! ### The seven encodings: results (spec/40_ldrsb_immediate.md R97 to R103)

Each says that the instruction completes, and with which state, for every state and all operands of
its row with the condition passed and the address admitted. -/

/-- R97: the offset form of A1. `x[t]` may be the base itself. -/
def Obligations.LdrsbA1OffLoads : Prop :=
  ∀ (cond : Cond) (u : Bool) (rn rt : BitVec 4) (imm8 : BitVec 8) (n t : RegNum) (s : State),
    gp? rn = some n → gp? rt = some t → condHolds cond s.flags = true →
    let address := if u then s.x n + imm8.setWidth 32 else s.x n - imm8.setWidth 32
    admits s.params address .dataRead = true →
    exec (.ldrsbA1Off cond u rn rt imm8) s =
      .next (s.setX t ((s.mem.read address).signExtend 32)).past

/-- R98: the post-indexed form of A1: the access is at the old base. -/
def Obligations.LdrsbA1PostLoadsAndWritesBack : Prop :=
  ∀ (cond : Cond) (u : Bool) (rn rt : BitVec 4) (imm8 : BitVec 8) (n t : RegNum) (s : State),
    gp? rn = some n → gp? rt = some t → n ≠ t → condHolds cond s.flags = true →
    let offsetAddr := if u then s.x n + imm8.setWidth 32 else s.x n - imm8.setWidth 32
    admits s.params (s.x n) .dataRead = true →
    exec (.ldrsbA1Post cond u rn rt imm8) s =
      .next ((s.setX t ((s.mem.read (s.x n)).signExtend 32)).setX n offsetAddr).past

/-- R99: the pre-indexed form of A1: the access is at the new base. -/
def Obligations.LdrsbA1PreLoadsAndWritesBack : Prop :=
  ∀ (cond : Cond) (u : Bool) (rn rt : BitVec 4) (imm8 : BitVec 8) (n t : RegNum) (s : State),
    gp? rn = some n → gp? rt = some t → n ≠ t → condHolds cond s.flags = true →
    let offsetAddr := if u then s.x n + imm8.setWidth 32 else s.x n - imm8.setWidth 32
    admits s.params offsetAddr .dataRead = true →
    exec (.ldrsbA1Pre cond u rn rt imm8) s =
      .next ((s.setX t ((s.mem.read offsetAddr).signExtend 32)).setX n offsetAddr).past

/-- R100: T1, the 12-bit immediate always added, under the condition `ITSTATE` gives. -/
def Obligations.LdrsbT1Loads : Prop :=
  ∀ (rn rt : BitVec 4) (imm12 : BitVec 12) (n t : RegNum) (c : Cond) (s : State),
    gp? rn = some n → gp? rt = some t → itCond s.it = some c → condHolds c s.flags = true →
    let address := s.x n + imm12.setWidth 32
    admits s.params address .dataRead = true →
    exec (.ldrsbT1 rn rt imm12) s = .next (s.setX t ((s.mem.read address).signExtend 32)).past

/-- R101: the offset form of T2, the 8-bit immediate always subtracted. -/
def Obligations.LdrsbT2OffLoads : Prop :=
  ∀ (rn rt : BitVec 4) (imm8 : BitVec 8) (n t : RegNum) (c : Cond) (s : State),
    gp? rn = some n → gp? rt = some t → itCond s.it = some c → condHolds c s.flags = true →
    let address := s.x n - imm8.setWidth 32
    admits s.params address .dataRead = true →
    exec (.ldrsbT2Off rn rt imm8) s = .next (s.setX t ((s.mem.read address).signExtend 32)).past

/-- R102: the post-indexed form of T2. -/
def Obligations.LdrsbT2PostLoadsAndWritesBack : Prop :=
  ∀ (u : Bool) (rn rt : BitVec 4) (imm8 : BitVec 8) (n t : RegNum) (c : Cond) (s : State),
    gp? rn = some n → gp? rt = some t → n ≠ t → itCond s.it = some c →
    condHolds c s.flags = true →
    let offsetAddr := if u then s.x n + imm8.setWidth 32 else s.x n - imm8.setWidth 32
    admits s.params (s.x n) .dataRead = true →
    exec (.ldrsbT2Post u rn rt imm8) s =
      .next ((s.setX t ((s.mem.read (s.x n)).signExtend 32)).setX n offsetAddr).past

/-- R103: the pre-indexed form of T2. -/
def Obligations.LdrsbT2PreLoadsAndWritesBack : Prop :=
  ∀ (u : Bool) (rn rt : BitVec 4) (imm8 : BitVec 8) (n t : RegNum) (c : Cond) (s : State),
    gp? rn = some n → gp? rt = some t → n ≠ t → itCond s.it = some c →
    condHolds c s.flags = true →
    let offsetAddr := if u then s.x n + imm8.setWidth 32 else s.x n - imm8.setWidth 32
    admits s.params offsetAddr .dataRead = true →
    exec (.ldrsbT2Pre u rn rt imm8) s =
      .next ((s.setX t ((s.mem.read offsetAddr).signExtend 32)).setX n offsetAddr).past

/-! ### Parts of the operation, over all seven encodings -/

/-- R93: the address arithmetic is modulo 2^32 in both directions, and with a zero immediate both give the
base. -/
def Obligations.AddressArithmeticWraps : Prop :=
  ∀ (i : Instr) (d : Operands) (base : Word), operandsOf i = some d →
    d.imm32.toNat < 4096 ∧
    (d.add = true → (d.offsetAddr base).toNat = (base.toNat + d.imm32.toNat) % 2 ^ 32) ∧
    (d.add = false →
      ((d.offsetAddr base).toNat : Int) = ((base.toNat : Int) - d.imm32.toNat) % 2 ^ 32) ∧
    (d.imm32 = 0 → d.offsetAddr base = base)

/-- R94: after a completed load `x[t]` holds the byte in bits 7:0 and 24 copies of its bit 7 above; read as
a signed integer it lies between -128 and 127. The byte is the one at `address`, and no other byte of memory
plays a part: with any memory that agrees there, the instruction does the same. -/
def Obligations.LoadedByteIsSignExtended : Prop :=
  ∀ (i : Instr) (d : Operands) (c : Cond) (s s' : State), operandsOf i = some d → d.defined →
    condOf s i = some c → condHolds c s.flags = true → exec i s = .next s' →
    admits s.params (d.address (s.x d.n)) .dataRead = true →
    let b := s.mem.read (d.address (s.x d.n))
    (∀ k, k < 8 → (s'.x d.t).getLsbD k = b.getLsbD k) ∧
    (∀ k, 8 ≤ k → k < 32 → (s'.x d.t).getLsbD k = b.getLsbD 7) ∧
    -128 ≤ (s'.x d.t).toInt ∧ (s'.x d.t).toInt ≤ 127 ∧
    ∀ m : Memory, m.read (d.address (s.x d.n)) = b →
      exec i { s with mem := m } = .next { s' with mem := m }

/-- R95: after a completed load the base of a write-back form holds `offset_addr`, whether the access used
`offset_addr` or the old base, so with a zero immediate the value it already had; without write-back the
base, unless it is the destination, is not written. -/
def Obligations.WriteBackGivesTheBaseOffsetAddr : Prop :=
  ∀ (i : Instr) (d : Operands) (c : Cond) (s s' : State), operandsOf i = some d → d.defined →
    condOf s i = some c → condHolds c s.flags = true →
    admits s.params (d.address (s.x d.n)) .dataRead = true → exec i s = .next s' →
    (d.wback = true → s'.x d.n =
      if d.add then s.x d.n + d.imm32 else s.x d.n - d.imm32) ∧
    (d.wback = true → d.imm32 = 0 → s'.x d.n = s.x d.n) ∧
    (d.wback = false → d.n ≠ d.t → s'.x d.n = s.x d.n)

/-- R109: a defined `LDRSB` whose condition fails reads no register, makes no access and writes nothing: it
completes, with only `pc` and `ITSTATE` changed, whatever is admitted. -/
def Obligations.FailedConditionOnlyAdvances : Prop :=
  ∀ (i : Instr) (d : Operands) (c : Cond) (s : State), operandsOf i = some d → d.defined →
    condOf s i = some c → condHolds c s.flags = false → exec i s = .next s.past

/-- R109, under the spec's reading of `UNDEF_IGNORES_COND`: the decode outcomes (a refused word, an
UNPREDICTABLE one, the UNDEFINED row) do not depend on the condition: they are the same whatever the flags
are. -/
def Obligations.DecodeOutcomesIgnoreTheCondition : Prop :=
  ∀ (s : State) (f : Flags), s.params.undefIgnoresCond = true →
    (∀ i r, exec i s = .refused r → exec i { s with flags := f } = .refused r) ∧
    (∀ i g, exec i s = .fault g → exec i { s with flags := f } = .fault g) ∧
    (∀ u rn rt imm8 s', exec (.undefinedT2 u rn rt imm8) s = .next s' →
      exec (.undefinedT2 u rn rt imm8) { s with flags := f } = .next { s' with flags := f })

/-- R47, R96, R121: a read that is not admitted takes the Data Abort exception with the address of the
byte, and nothing but the recorded fault changes: no register is written, `pc` stands. -/
def Obligations.UnadmittedReadTakesDataAbort : Prop :=
  ∀ (i : Instr) (d : Operands) (c : Cond) (s : State), operandsOf i = some d → d.defined →
    condOf s i = some c → condHolds c s.flags = true →
    let address :=
      if d.index then (if d.add then s.x d.n + d.imm32 else s.x d.n - d.imm32) else s.x d.n
    admits s.params address .dataRead = false →
    exec i s = .next { s with fault := some (.dataAbort address) }

/-- spec/70_reset_and_hazards.md R146: in every defined case the instruction is repeatable: after an aborted
read no register has changed, and executing it again once the cause is removed gives what a first
successful execution would have given. -/
def Obligations.AbortedLoadIsRepeatable : Prop :=
  ∀ (i : Instr) (s s' : State) (a : Word) (p : Config.Params), i.predictable = true →
    s.fault = none → exec i s = .next s' → s'.fault = some (.dataAbort a) →
    admits p a .dataRead = true →
    (∀ r : RegNum, s'.x r = s.x r) ∧
    ∃ t, exec i { s with params := p } = .next t ∧ t.fault = none ∧
      exec i { s' with fault := none, params := p } = .next t

/-! ### UNPREDICTABLE and UNDEFINED -/

/-- R104: an A1 word with `t == 15` faults, whatever `P`, `U`, `W` and the immediate are, and whatever the
condition is (R109), unless the launch takes `UNDEF_IGNORES_COND` FALSE and the condition fails. -/
def Obligations.A1Rt15IsUnpredictable : Prop :=
  ∀ (cond : Cond) (u : Bool) (rn : BitVec 4) (imm8 : BitVec 8) (s : State), rn ≠ 15#4 →
    (s.params.undefIgnoresCond = true ∨ condHolds cond s.flags = true) →
    exec (.ldrsbA1Off cond u rn 15 imm8) s = .fault (.unpredictable .a1Rt15) ∧
    exec (.ldrsbA1Post cond u rn 15 imm8) s = .fault (.unpredictable .a1Rt15) ∧
    exec (.ldrsbA1Pre cond u rn 15 imm8) s = .fault (.unpredictable .a1Rt15)

/-- R106: a T2 word with `t == 15 && W == '1'` faults, under the same proviso. -/
def Obligations.T2WbackRt15IsUnpredictable : Prop :=
  ∀ (u : Bool) (rn : BitVec 4) (imm8 : BitVec 8) (c : Cond) (s : State), rn ≠ 15#4 →
    itCond s.it = some c → (s.params.undefIgnoresCond = true ∨ condHolds c s.flags = true) →
    exec (.ldrsbT2Post u rn 15 imm8) s = .fault (.unpredictable .t2Rt15W) ∧
    exec (.ldrsbT2Pre u rn 15 imm8) s = .fault (.unpredictable .t2Rt15W)

/-- R105, R107, R108: `wback && n == t` under the parameter `CU_WBACK_N_EQ_T`: the spec's default faults;
`UNDEF` raises the Undefined Instruction exception with the word; `NOP` only advances;
`LOAD_BASE_UNKNOWN` with the condition passed reads the byte, gives register `n` an UNKNOWN value, and
nothing else; where the read aborts it takes the Data Abort alone (spec/60_exceptions.md R128), or, where the
launch says that the abort corrupts the base, with an UNKNOWN value in register `n` (R108; log entry 14).
The UNKNOWN value is a free value: nothing is said of it. -/
def Obligations.WbackToTheDestinationIsConstrained : Prop :=
  ∀ (i : Instr) (d : Operands) (c : Cond) (s : State), operandsOf i = some d → ¬ d.defined →
    condOf s i = some c → (s.params.undefIgnoresCond = true ∨ condHolds c s.flags = true) →
    (s.params.cuWback = .specFault → exec i s = .fault (.unpredictable .wbackNEqT)) ∧
    (s.params.cuWback = .fixed .undef →
      exec i s = .next { s with fault := some (.undefinedInstruction (encode i)) }) ∧
    (s.params.cuWback = .fixed .nop → exec i s = .next s.past) ∧
    (s.params.cuWback = .fixed .loadBaseUnknown → condHolds c s.flags = false →
      exec i s = .next s.past) ∧
    (s.params.cuWback = .fixed .loadBaseUnknown → condHolds c s.flags = true →
      ∃ v k, exec i s =
        if admits s.params (d.address (s.x d.n)) .dataRead = true then
          .next { (s.setX d.n v).past with draws := k }
        else if s.params.abortCorruptsBase = true then
          .next { s.setX d.n v with
            fault := some (.dataAbort (d.address (s.x d.n))), draws := k }
        else .next { s with fault := some (.dataAbort (d.address (s.x d.n))) })

/-- R108, spec/92_eei_decisions.md D14: under a free choice made at each execution the outcome is one of the
three permitted ones, and the choice of the coming execution is not this one's: the count of draws
goes on. (`drawn` is the model's form of the open choice, log entry 9.) -/
def Obligations.DrawnOutcomeIsPermitted : Prop :=
  ∀ (i : Instr) (d : Operands) (c : Cond) (s : State), operandsOf i = some d → ¬ d.defined →
    condOf s i = some c → condHolds c s.flags = true → s.params.cuWback = .drawn →
    admits s.params (d.address (s.x d.n)) .dataRead = true →
    ∃ s', exec i s = .next s' ∧ s.draws < s'.draws ∧
      (s' = { s with fault := some (.undefinedInstruction (encode i)), draws := s'.draws } ∨
       s' = { s.past with draws := s'.draws } ∨
       ∃ v, s' = { (s.setX d.n v).past with draws := s'.draws })

/-- R80, R120: a T32 step whose word is of class T2 with `P == '0' && W == '0'` and `Rn != 1111` takes the
Undefined Instruction exception with the word, whatever `U`, `Rt` and the immediate are, and whatever the
flags are unless the launch takes `UNDEF_IGNORES_COND` FALSE. -/
def Obligations.UndefinedPatternRaises : Prop :=
  (∀ (c : Cond) (s : State), FetchReady s → s.iset = .t32 → itCond s.it = some c →
    (s.params.undefIgnoresCond = true ∨ condHolds c s.flags = true) →
    isT2 (fetchWord s) = true → (fetchWord s).getLsbD 10 = false →
    (fetchWord s).getLsbD 8 = false → (fetchWord s).extractLsb' 16 4 ≠ 15#4 →
    step s = .next { s with fault := some (.undefinedInstruction (fetchWord s)) }) ∧
  (∀ (u : Bool) (rn rt : BitVec 4) (imm8 : BitVec 8) (c : Cond) (s : State), itCond s.it = some c →
    (s.params.undefIgnoresCond = true ∨ condHolds c s.flags = true) →
    exec (.undefinedT2 u rn rt imm8) s =
      .next { s with fault := some (.undefinedInstruction (encode (.undefinedT2 u rn rt imm8))) })

/-- spec/00_scope.md R7, spec/92_eei_decisions.md D16: where the launch takes `UNDEF_IGNORES_COND` FALSE, a
failed condition makes an UNDEFINED or UNPREDICTABLE word a no-op. -/
def Obligations.FailedConditionHidesUndefined : Prop :=
  ∀ (c : Cond) (s : State), s.params.undefIgnoresCond = false → condHolds c s.flags = false →
    (∀ u rn rt imm8, itCond s.it = some c → exec (.undefinedT2 u rn rt imm8) s = .next s.past) ∧
    (∀ u rn imm8, rn ≠ 15#4 →
      exec (.ldrsbA1Off c u rn 15 imm8) s = .next s.past ∧
      exec (.ldrsbA1Post c u rn 15 imm8) s = .next s.past ∧
      exec (.ldrsbA1Pre c u rn 15 imm8) s = .next s.past) ∧
    (∀ u rn imm8, rn ≠ 15#4 → itCond s.it = some c →
      exec (.ldrsbT2Post u rn 15 imm8) s = .next s.past ∧
      exec (.ldrsbT2Pre u rn 15 imm8) s = .next s.past) ∧
    (∀ i d, operandsOf i = some d → ¬ d.defined → condOf s i = some c →
      exec i s = .next s.past)

/-! ### Words of other instructions (R77 to R79) -/

/-- R77: in all three classes a word with `Rn == '1111'` is refused as `LDRSB (literal)`, unless in T32 the
`PLI` test took it first; so is each of the three rows. -/
def Obligations.LiteralWordsAreRefused : Prop :=
  (∀ s : State, FetchReady s → (fetchWord s).extractLsb' 16 4 = 15#4 →
    (s.iset = .a32 ∧ isA1 (fetchWord s) = true ∧ (fetchWord s).extractLsb' 28 4 ≠ 15#4 ∨
     s.iset = .t32 ∧ isT1 (fetchWord s) = true ∧ (fetchWord s).extractLsb' 12 4 ≠ 15#4 ∨
     s.iset = .t32 ∧ isT2 (fetchWord s) = true ∧
      ¬ ((fetchWord s).extractLsb' 12 4 = 15#4 ∧ (fetchWord s).extractLsb' 8 3 = 0b100#3)) →
    step s = .refused .seeLdrsbLiteral) ∧
  (∀ s cond p u w rt imm8, exec (.seeLiteralA1 cond p u w rt imm8) s = .refused .seeLdrsbLiteral) ∧
  (∀ s rt imm12, exec (.seeLiteralT1 rt imm12) s = .refused .seeLdrsbLiteral) ∧
  (∀ s p u w rt imm8, exec (.seeLiteralT2 p u w rt imm8) s = .refused .seeLdrsbLiteral)

/-- R78: in T1 a word with `Rt == '1111'`, and in T2 one that also has `P, U, W = 1, 0, 0`, is refused as
`PLI`, also when `Rn == '1111'`; so is each of the two rows. No A32 step is. -/
def Obligations.PliWordsAreRefused : Prop :=
  (∀ s : State, FetchReady s → s.iset = .t32 → (fetchWord s).extractLsb' 12 4 = 15#4 →
    (isT1 (fetchWord s) = true ∨
     isT2 (fetchWord s) = true ∧ (fetchWord s).extractLsb' 8 3 = 0b100#3) →
    step s = .refused .seePli) ∧
  (∀ s rn imm12, exec (.seePliT1 rn imm12) s = .refused .seePli) ∧
  (∀ s rn imm8, exec (.seePliT2 rn imm8) s = .refused .seePli) ∧
  (∀ s : State, s.iset = .a32 → step s ≠ .refused .seePli)

/-- R79: in A1 a word with `P == '0' && W == '1'`, in T2 one with `P, U, W = 1, 1, 0`, and `Rn != 1111`, is
refused as `LDRSBT`; so is each of the two rows. No word of class T1 is. -/
def Obligations.LdrsbtWordsAreRefused : Prop :=
  (∀ s : State, FetchReady s → (fetchWord s).extractLsb' 16 4 ≠ 15#4 →
    (s.iset = .a32 ∧ isA1 (fetchWord s) = true ∧ (fetchWord s).extractLsb' 28 4 ≠ 15#4 ∧
      (fetchWord s).getLsbD 24 = false ∧ (fetchWord s).getLsbD 21 = true ∨
     s.iset = .t32 ∧ isT2 (fetchWord s) = true ∧ (fetchWord s).extractLsb' 8 3 = 0b110#3) →
    step s = .refused .seeLdrsbt) ∧
  (∀ s cond u rn rt imm8, exec (.seeLdrsbtA1 cond u rn rt imm8) s = .refused .seeLdrsbt) ∧
  (∀ s rn rt imm8, exec (.seeLdrsbtT2 rn rt imm8) s = .refused .seeLdrsbt) ∧
  (∀ s : State, s.iset = .t32 → isT1 (fetchWord s) = true → step s ≠ .refused .seeLdrsbt)

/-! ### Frames -/

/-- R22, R112: the offset forms (A1, T1, T2) change no register but `x[t]`; flags, `iset`, `dit`, memory, the
launch parameters and the count of draws are as before. They store nothing. -/
def Obligations.OffsetFormsFrame : Prop :=
  ∀ (i : Instr) (rt : BitVec 4) (s s' : State),
    ((∃ cond u rn imm8, i = .ldrsbA1Off cond u rn rt imm8) ∨ (∃ rn imm12, i = .ldrsbT1 rn rt imm12) ∨
      (∃ rn imm8, i = .ldrsbT2Off rn rt imm8)) →
    exec i s = .next s' →
    (∀ r : RegNum, gp? rt ≠ some r → s'.x r = s.x r) ∧ s'.flags = s.flags ∧ s'.iset = s.iset ∧
      s'.dit = s.dit ∧ s'.params = s.params ∧ s'.draws = s.draws ∧
      (s'.it = s.it ∨ s.iset = .t32 ∧ s'.it = itAdvance s.it) ∧
      (s'.fault = s.fault ∨ ∃ a, s'.fault = some (.dataAbort a)) ∧
      ∀ a : Word, s'.mem.read a = s.mem.read a

/-- R22, R112: the post- and pre-indexed forms (A1, T2) change no register but `x[t]` and the base `x[n]`.
(`draws`, the model's own count, may change where `wback && n == t`, log entry 10.) They store nothing. -/
def Obligations.WriteBackFormsFrame : Prop :=
  ∀ (i : Instr) (rn rt : BitVec 4) (s s' : State),
    ((∃ cond u imm8, i = .ldrsbA1Post cond u rn rt imm8) ∨
      (∃ cond u imm8, i = .ldrsbA1Pre cond u rn rt imm8) ∨
      (∃ u imm8, i = .ldrsbT2Post u rn rt imm8) ∨ (∃ u imm8, i = .ldrsbT2Pre u rn rt imm8)) →
    exec i s = .next s' →
    (∀ r : RegNum, gp? rt ≠ some r → gp? rn ≠ some r → s'.x r = s.x r) ∧ s'.flags = s.flags ∧
      s'.iset = s.iset ∧ s'.dit = s.dit ∧ s'.params = s.params ∧
      (rn ≠ rt → s'.draws = s.draws) ∧
      (s'.it = s.it ∨ s.iset = .t32 ∧ s'.it = itAdvance s.it) ∧
      (s'.fault = s.fault ∨ (∃ a, s'.fault = some (.dataAbort a)) ∨
        rn = rt ∧ s'.fault = some (.undefinedInstruction (encode i))) ∧
      ∀ a : Word, s'.mem.read a = s.mem.read a

/-- R120, R128: the UNDEFINED row changes no register, flag, memory byte or launch parameter. -/
def Obligations.UndefinedFrame : Prop :=
  ∀ (u : Bool) (rn rt : BitVec 4) (imm8 : BitVec 8) (s s' : State),
    exec (.undefinedT2 u rn rt imm8) s = .next s' →
    (∀ r : RegNum, s'.x r = s.x r) ∧ s'.flags = s.flags ∧ s'.iset = s.iset ∧ s'.dit = s.dit ∧
      s'.params = s.params ∧ s'.draws = s.draws ∧
      (s'.it = s.it ∨ s.iset = .t32 ∧ s'.it = itAdvance s.it) ∧
      (s'.fault = s.fault ∨
        s'.fault = some (.undefinedInstruction (encode (.undefinedT2 u rn rt imm8)))) ∧
      ∀ a : Word, s'.mem.read a = s.mem.read a

/-- spec/10_state.md R26: every instruction that completes leaves `pc` at `(pc + 4) mod 2^32`, condition
passed or failed; where an exception is taken `pc` is not advanced. -/
def Obligations.PcAdvancesByFour : Prop :=
  ∀ (i : Instr) (s s' : State), s.fault = none → exec i s = .next s' →
    (s'.fault = none → s'.pc.toNat = (s.pc.toNat + 4) % 2 ^ 32) ∧
    (s'.fault ≠ none → s'.pc = s.pc)

/-! ### What an instruction reads -/

/-- R112: no instruction writes a condition flag or another status bit, and flags are read only through the
condition: with flags under which the condition answers the same, every instruction does the same. (`it`
advances by R110.) -/
def Obligations.FlagsAreReadOnlyThroughTheCondition : Prop :=
  ∀ (i : Instr) (s : State) (f : Flags),
    (∀ c, condOf s i = some c → condHolds c f = condHolds c s.flags) →
    (∀ s', exec i s = .next s' →
      s'.flags = s.flags ∧ s'.iset = s.iset ∧ s'.dit = s.dit ∧
        exec i { s with flags := f } = .next { s' with flags := f }) ∧
    (∀ g, exec i s = .fault g → exec i { s with flags := f } = .fault g) ∧
    (∀ r, exec i s = .refused r → exec i { s with flags := f } = .refused r)

/-- spec/10_state.md R30, spec/70_reset_and_hazards.md R148: `CPSR.DIT` has no effect on anything a step computes
and no step writes it. -/
def Obligations.DitHasNoEffect : Prop :=
  ∀ (s : State) (b : Bool),
    (∀ s', step s = .next s' →
      s'.dit = s.dit ∧ step { s with dit := b } = .next { s' with dit := b }) ∧
    (∀ g, step s = .fault g → step { s with dit := b } = .fault g) ∧
    (∀ r, step s = .refused r → step { s with dit := b } = .refused r)

/-- R22: an instruction reads no register but its base: with another register file in which the base holds
the same, it ends the same way, writes the same values into the registers it writes, and leaves the
others. -/
def Obligations.OnlyTheBaseIsRead : Prop :=
  ∀ (i : Instr) (d : Operands) (s : State) (regs : Vector Word 15), operandsOf i = some d →
    State.x { s with regs := regs } d.n = s.x d.n →
    (∀ s', exec i s = .next s' → ∃ regs', exec i { s with regs := regs } = .next { s' with regs := regs' } ∧
      ∀ r : RegNum, (regs'[r.val] = s'.x r) ∨ (s'.x r = s.x r ∧ regs'[r.val] = regs[r.val])) ∧
    (∀ g, exec i s = .fault g → exec i { s with regs := regs } = .fault g) ∧
    (∀ r, exec i s = .refused r → exec i { s with regs := regs } = .refused r)

/-- spec/20_memory.md R43: an instruction depends on no byte of memory but the one at `address`, and on none
when its condition fails: with another memory that agrees there it does the same. -/
def Obligations.OnlyTheAddressedByteIsRead : Prop :=
  ∀ (i : Instr) (d : Operands) (c : Cond) (s : State) (m : Memory), operandsOf i = some d →
    condOf s i = some c →
    (condHolds c s.flags = true →
      m.read (d.address (s.x d.n)) = s.mem.read (d.address (s.x d.n))) →
    (∀ s', exec i s = .next s' → exec i { s with mem := m } = .next { s' with mem := m }) ∧
    (∀ g, exec i s = .fault g → exec i { s with mem := m } = .fault g) ∧
    (∀ r, exec i s = .refused r → exec i { s with mem := m } = .refused r)

/-! ### The step -/

/-- spec/40_ldrsb_immediate.md R116: in a state ready to fetch, a step is the instruction the word at `pc`
decodes to, executed; a word that is none is refused. -/
def Obligations.StepRunsTheDecodedInstruction : Prop :=
  ∀ s : State, FetchReady s →
    (∀ i, decode s.iset (fetchWord s) = .instr i → step s = exec i s) ∧
    (decode s.iset (fetchWord s) = .notLdrsbImmediate → step s = .refused .notLdrsbImmediate)

/-- spec/20_memory.md R56, R57: the instruction word of the bytes at `pc`: in A32 little-endian; in T32 two
little-endian halfwords, the first, at the lower address, in bits 31:16. -/
def Obligations.FetchLayout : Prop :=
  ∀ s : State,
    (s.iset = .a32 → (fetchWord s).toNat =
      (s.mem.read s.pc).toNat + (s.mem.read (s.pc + 1)).toNat * 2 ^ 8 +
        (s.mem.read (s.pc + 2)).toNat * 2 ^ 16 + (s.mem.read (s.pc + 3)).toNat * 2 ^ 24) ∧
    (s.iset = .t32 → (fetchWord s).toNat =
      ((s.mem.read s.pc).toNat + (s.mem.read (s.pc + 1)).toNat * 2 ^ 8) * 2 ^ 16 +
        ((s.mem.read (s.pc + 2)).toNat + (s.mem.read (s.pc + 3)).toNat * 2 ^ 8))

/-- spec/10_state.md R27: a `pc` that is not a multiple of 4 in A32, or of 2 in T32, is refused; at
`pc >= 0xFFFFFFFC` the step faults instead of wrapping. -/
def Obligations.PcAlignmentAndWrap : Prop :=
  ∀ s : State, s.fault = none → s.params.haltPc ≠ some s.pc →
    (s.iset = .a32 → s.pc.toNat % 4 ≠ 0 → step s = .refused .misalignedPc) ∧
    (s.iset = .t32 → s.pc.toNat % 2 ≠ 0 → step s = .refused .misalignedPc) ∧
    (s.pc.toNat % (if s.iset = .a32 then 4 else 2) = 0 → itLegal s.iset s.it = true →
      0xFFFFFFFC ≤ s.pc.toNat → step s = .fault .pcWrap)

/-- spec/20_memory.md R58: each of the four bytes must be admitted for `Fetch`, otherwise the step faults with
`FetchFault(pc)`, before anything is decoded. -/
def Obligations.UnadmittedFetchFaults : Prop :=
  ∀ (s : State) (k : Nat), LaunchLegal s → s.params.haltPc ≠ some s.pc →
    s.pc.toNat < 0xFFFFFFFC → k < 4 →
    (∀ w ∈ s.params.memAdmit, w.kind = .fetch →
      ¬ (w.first.toNat ≤ s.pc.toNat + k ∧ s.pc.toNat + k ≤ w.last.toNat)) →
    step s = .fault (.fetchFault s.pc)

/-- spec/70_reset_and_hazards.md R143: at `HALT_PC` nothing is fetched and the state is final if no fault is
recorded. (That the step then answers the refusal `runOver` is the model's form of "the run is over",
log entry 12.) -/
def Obligations.RunEndsAtHaltPc : Prop :=
  ∀ (s : State) (m : Memory), s.fault = none → s.params.haltPc = some s.pc →
    Final s ∧ step { s with mem := m } = .refused .runOver

/-- spec/60_exceptions.md R128: raising an exception sets the state's `fault` and changes nothing else; the
faulted state has no further step, now or after any number of attempts, and is never final.
The first clause takes every instruction with defined operands; the second takes every instruction, where
the launch does not let an abort corrupt the base (log entry 14), and there only `draws`, the model's own
count, may change beside the fault. -/
def Obligations.RaisingSetsOnlyTheFault : Prop :=
  (∀ (i : Instr) (s s' : State) (f : Fault), (∀ d, operandsOf i = some d → d.defined) →
    s.fault = none → exec i s = .next s' → s'.fault = some f → s' = { s with fault := some f }) ∧
  (∀ (i : Instr) (s s' : State) (f : Fault), s.params.abortCorruptsBase = false →
    s.fault = none → exec i s = .next s' → s'.fault = some f →
    s' = { s with fault := some f, draws := s'.draws }) ∧
  (∀ (s : State) (f : Fault), s.fault = some f →
    (∀ k, Sys2Proof.core.run (k + 1) s = .fault f) ∧ ¬ Final s)

/-- spec/60_exceptions.md R124: the closed list. With no fault recorded, a step's faults are `Unpredictable`,
`PcWrap` and `FetchFault`, the exceptions it records are `UndefinedInstruction` and `DataAbort`, and its
refusals are the six of R124 and the model's own `runOver` (log entry 12). (`UnwrittenRegister` is not
raised, log entry 1.) -/
def Obligations.OutcomesAreTheClosedList : Prop :=
  ∀ s : State, s.fault = none →
    (∀ f, step s = .fault f → (∃ r, f = .unpredictable r) ∨ f = .pcWrap ∨ f = .fetchFault s.pc) ∧
    (∀ s' f, step s = .next s' → s'.fault = some f →
      (∃ w, f = .undefinedInstruction w) ∨ ∃ a, f = .dataAbort a) ∧
    (∀ r, step s = .refused r → r ∈ [.notLdrsbImmediate, .seeLdrsbLiteral, .seeLdrsbt, .seePli,
      .misalignedPc, .illegalItstate, .runOver])

/-- spec/20_memory.md R42, R47: the read primitive: the byte where the address lies in a window admitted for
`DataRead`, none (`DataAbort`) elsewhere. -/
def Obligations.MemReadIsTheAdmittedByte : Prop :=
  ∀ (s : State) (a : Word),
    ((∃ w ∈ s.params.memAdmit, w.kind = .dataRead ∧ w.first.toNat ≤ a.toNat ∧ a.toNat ≤ w.last.toNat) →
      memRead s a = some (s.mem.read a)) ∧
    ((∀ w ∈ s.params.memAdmit, w.kind = .dataRead →
      ¬ (w.first.toNat ≤ a.toNat ∧ a.toNat ≤ w.last.toNat)) → memRead s a = none)

/-- spec/10_state.md R32: class A1 is decoded only in A32 and classes T1, T2 only in T32, and no step changes
`iset`. -/
def Obligations.InstructionSetNeverChanges : Prop :=
  (∀ s i, fetchInstr s = .next i → i.iset = s.iset) ∧
  (∀ s s', step s = .next s' → s'.iset = s.iset)

/-- Log entry 18, the model's own: a word of the opcode table placed by `withFetchWord`, in any state whose
memory is in canonical form, is what the next step runs, and memory stays in canonical form. -/
def Obligations.PlacedWordRunsNext : Prop :=
  ∀ (s : State) (w : Nat) (i : Instr), s.mem.wf → w < 2 ^ 32 →
    decodeTableWord 32 w = some i →
    step (s.withFetchWord 32 w) = exec i (s.withFetchWord 32 w) ∧ (s.withFetchWord 32 w).mem.wf

/-! ### Invariants and runs -/

/-- The state after reset, every value of which is the model's choice (log entries 1 to 12; the spec states
none, spec/10_state.md R35), meets the invariant and the launch premises (1), (2), (6) of
spec/70_reset_and_hazards.md R142. -/
def Obligations.ResetMeetsTheInvariant : Prop :=
  Inv State.reset ∧ LaunchLegal State.reset

/-- Every step from a state of the invariant gives a state of the invariant: memory keeps its canonical form,
`pc` stays aligned (R27), `ITSTATE` stays legal to the end of its block (R33), and only architectural
exceptions are recorded (spec/60_exceptions.md R124). -/
def Obligations.EveryStepKeepsTheInvariant : Prop :=
  ∀ s s' : State, Inv s → step s = .next s' → Inv s'

/-- spec/20_memory.md R54: over a whole run the bytes of memory are the launch bytes, so what a fetch finds at
an address never changes; nor do `iset`, the flags, `dit` and the launch parameters (R38: "Only `x[t]`,
`x[n]`, `pc`, `it` and `fault` can change"; `draws` is the model's own). -/
def Obligations.RunKeepsTheLaunchMemory : Prop :=
  ∀ (k : Nat) (s s' : State), Sys2Proof.core.run k s = .next s' →
    s'.mem = s.mem ∧ s'.iset = s.iset ∧ s'.flags = s.flags ∧ s'.dit = s.dit ∧ s'.params = s.params

/-- spec/70_reset_and_hazards.md R143: a run of `k` instructions that ends at `HALT_PC` started `4k` bytes
below it. That `pc` rose without wrapping comes from `PcWrap` (spec/10_state.md R27, the spec's own decision
D29; log entry 26). -/
def Obligations.CompletedRunIsStraightLine : Prop :=
  ∀ (k : Nat) (s t : State), CompletesIn k s t →
    t.pc.toNat = s.pc.toNat + 4 * k ∧ s.params.haltPc = some t.pc

/-- From every state the machine has stopped after `2^30 + 1` steps. Each instruction takes one step and
cannot loop (spec/70_reset_and_hazards.md R149, spec/40_ldrsb_immediate.md R110): it advances `pc` by 4, or
takes an exception, after which there is no further step (spec/60_exceptions.md R128). The bound is in none
of these rules: it comes from `PcWrap`, by which `pc` never wraps (spec/10_state.md R27, the spec's own
decision D29; log entry 26), so that at most `2^30` advances fit below the top. -/
def Obligations.EveryRunStops : Prop :=
  ∀ s s' : State, Sys2Proof.core.run (2 ^ 30 + 1) s ≠ .next s'
end

