-- ==== Sys2Proof/Laws/Decode.lean ====
section
/-! SUPPORT. The fields of an encoded word, class by class: each field read back is the field encoded. -/
namespace Sys2Proof

/-- Two 32-bit words with the same bits are the same. -/
theorem word_ext {v w : Word} (h : ∀ i, (hi : i < 32) → v[i] = w[i]) : v = w :=
  BitVec.eq_of_getElem_eq fun {i} hi => h i hi

theorem Cond.ofBits_bits (c : Cond) : Cond.ofBits c.bits = some c := by cases c <;> rfl

theorem Cond.bits_of_ofBits {b : BitVec 4} {c : Cond} (h : Cond.ofBits b = some c) : c.bits = b := by
  revert b c; decide

/-! ### Class A1 -/

section A1
variable (c : Cond) (p u w : Bool) (rn rt : BitVec 4) (imm8 : BitVec 8)

theorem isA1_wordA1 : isA1 (wordA1 c p u w rn rt imm8) = true := by
  rw [isA1, beq_iff_eq]
  refine word_ext fun i hi => ?_
  simp only [wordA1, BitVec.getElem_and, BitVec.getElem_append]
  interval_cases i <;> simp

theorem field_cond_wordA1 : field (wordA1 c p u w rn rt imm8) 28 4 = c.bits := by
  refine BitVec.eq_of_getElem_eq fun {i} hi => ?_
  simp only [field, wordA1, BitVec.getElem_extractLsb', BitVec.getLsbD_append]
  interval_cases i <;> simp

theorem bit_p_wordA1 : bit (wordA1 c p u w rn rt imm8) 24 = p := by
  simp only [bit, wordA1, BitVec.getLsbD_append]
  simp

theorem bit_u_wordA1 : bit (wordA1 c p u w rn rt imm8) 23 = u := by
  simp only [bit, wordA1, BitVec.getLsbD_append]
  simp

theorem bit_w_wordA1 : bit (wordA1 c p u w rn rt imm8) 21 = w := by
  simp only [bit, wordA1, BitVec.getLsbD_append]
  simp

theorem field_rn_wordA1 : field (wordA1 c p u w rn rt imm8) 16 4 = rn := by
  refine BitVec.eq_of_getElem_eq fun {i} hi => ?_
  simp only [field, wordA1, BitVec.getElem_extractLsb', BitVec.getLsbD_append]
  interval_cases i <;> simp

theorem field_rt_wordA1 : field (wordA1 c p u w rn rt imm8) 12 4 = rt := by
  refine BitVec.eq_of_getElem_eq fun {i} hi => ?_
  simp only [field, wordA1, BitVec.getElem_extractLsb', BitVec.getLsbD_append]
  interval_cases i <;> simp

theorem field_imm8_wordA1 :
    field (wordA1 c p u w rn rt imm8) 8 4 ++ field (wordA1 c p u w rn rt imm8) 0 4 = imm8 := by
  refine BitVec.eq_of_getElem_eq fun {i} hi => ?_
  simp only [field, wordA1, BitVec.getElem_append, BitVec.getElem_extractLsb',
    BitVec.getLsbD_append]
  interval_cases i <;> simp

end A1

/-- A word of class A1 is the word of its fields. -/
theorem wordA1_of_fields {v : Word} {c : Cond} (h : isA1 v = true)
    (hc : Cond.ofBits (field v 28 4) = some c) :
    wordA1 c (bit v 24) (bit v 23) (bit v 21) (field v 16 4) (field v 12 4)
      (field v 8 4 ++ field v 0 4) = v := by
  rw [isA1, beq_iff_eq] at h
  rw [wordA1, Cond.bits_of_ofBits hc]
  refine BitVec.eq_of_getLsbD_eq fun i hi => ?_
  have := congrArg (fun x : Word => x.getLsbD i) h
  simp only [BitVec.getLsbD_and] at this
  simp only [field, bit, BitVec.getLsbD_append, BitVec.getLsbD_extractLsb']
  interval_cases i <;> simp_all

/-! ### Class T1 -/

section T1
variable (rn rt : BitVec 4) (imm12 : BitVec 12)

theorem isT1_wordT1 : isT1 (wordT1 rn rt imm12) = true := by
  rw [isT1, beq_iff_eq]
  refine BitVec.eq_of_getLsbD_eq fun i hi => ?_
  simp only [wordT1, BitVec.getLsbD_and, BitVec.getLsbD_append]
  interval_cases i <;> simp

theorem field_rn_wordT1 : field (wordT1 rn rt imm12) 16 4 = rn := by
  refine BitVec.eq_of_getElem_eq fun {i} hi => ?_
  simp only [field, wordT1, BitVec.getElem_extractLsb', BitVec.getLsbD_append]
  interval_cases i <;> simp

theorem field_rt_wordT1 : field (wordT1 rn rt imm12) 12 4 = rt := by
  refine BitVec.eq_of_getElem_eq fun {i} hi => ?_
  simp only [field, wordT1, BitVec.getElem_extractLsb', BitVec.getLsbD_append]
  interval_cases i <;> simp

theorem field_imm12_wordT1 : field (wordT1 rn rt imm12) 0 12 = imm12 := by
  refine BitVec.eq_of_getElem_eq fun {i} hi => ?_
  simp only [field, wordT1, BitVec.getElem_extractLsb', BitVec.getLsbD_append]
  interval_cases i <;> simp

end T1

/-- A word of class T1 is the word of its fields. -/
theorem wordT1_of_fields {v : Word} (h : isT1 v = true) :
    wordT1 (field v 16 4) (field v 12 4) (field v 0 12) = v := by
  rw [isT1, beq_iff_eq] at h
  rw [wordT1]
  refine BitVec.eq_of_getLsbD_eq fun i hi => ?_
  have := congrArg (fun x : Word => x.getLsbD i) h
  simp only [BitVec.getLsbD_and] at this
  simp only [field, BitVec.getLsbD_append, BitVec.getLsbD_extractLsb']
  interval_cases i <;> simp_all

/-! ### Class T2 -/

section T2
variable (p u w : Bool) (rn rt : BitVec 4) (imm8 : BitVec 8)

theorem isT2_wordT2 : isT2 (wordT2 p u w rn rt imm8) = true := by
  rw [isT2, beq_iff_eq]
  refine BitVec.eq_of_getLsbD_eq fun i hi => ?_
  simp only [wordT2, BitVec.getLsbD_and, BitVec.getLsbD_append]
  interval_cases i <;> simp

/-- The two T32 classes differ in bit 23 (spec/30_encoding.md R63, R66). -/
theorem isT1_wordT2 : isT1 (wordT2 p u w rn rt imm8) = false := by
  rw [isT1, beq_eq_false_iff_ne]
  intro h
  have := congrArg (fun x : Word => x.getLsbD 23) h
  simp only [wordT2, BitVec.getLsbD_and, BitVec.getLsbD_append] at this
  simp at this

theorem bit_p_wordT2 : bit (wordT2 p u w rn rt imm8) 10 = p := by
  simp only [bit, wordT2, BitVec.getLsbD_append]
  simp

theorem bit_u_wordT2 : bit (wordT2 p u w rn rt imm8) 9 = u := by
  simp only [bit, wordT2, BitVec.getLsbD_append]
  simp

theorem bit_w_wordT2 : bit (wordT2 p u w rn rt imm8) 8 = w := by
  simp only [bit, wordT2, BitVec.getLsbD_append]
  simp

theorem field_rn_wordT2 : field (wordT2 p u w rn rt imm8) 16 4 = rn := by
  refine BitVec.eq_of_getElem_eq fun {i} hi => ?_
  simp only [field, wordT2, BitVec.getElem_extractLsb', BitVec.getLsbD_append]
  interval_cases i <;> simp

theorem field_rt_wordT2 : field (wordT2 p u w rn rt imm8) 12 4 = rt := by
  refine BitVec.eq_of_getElem_eq fun {i} hi => ?_
  simp only [field, wordT2, BitVec.getElem_extractLsb', BitVec.getLsbD_append]
  interval_cases i <;> simp

theorem field_imm8_wordT2 : field (wordT2 p u w rn rt imm8) 0 8 = imm8 := by
  refine BitVec.eq_of_getElem_eq fun {i} hi => ?_
  simp only [field, wordT2, BitVec.getElem_extractLsb', BitVec.getLsbD_append]
  interval_cases i <;> simp

end T2

/-- A word of class T2 is the word of its fields. -/
theorem wordT2_of_fields {v : Word} (h : isT2 v = true) :
    wordT2 (bit v 10) (bit v 9) (bit v 8) (field v 16 4) (field v 12 4) (field v 0 8) = v := by
  rw [isT2, beq_iff_eq] at h
  rw [wordT2]
  refine BitVec.eq_of_getLsbD_eq fun i hi => ?_
  have := congrArg (fun x : Word => x.getLsbD i) h
  simp only [BitVec.getLsbD_and] at this
  simp only [field, bit, BitVec.getLsbD_append, BitVec.getLsbD_extractLsb']
  interval_cases i <;> simp_all

/-! ### Decoding an encoded class -/

theorem decode_wordA1 (c : Cond) (p u w : Bool) (rn rt : BitVec 4) (imm8 : BitVec 8) :
    decode .a32 (wordA1 c p u w rn rt imm8) = .instr (stepsA1 c p u w rn rt imm8) := by
  simp only [decode, decodeA32, isA1_wordA1, if_true, field_cond_wordA1, Cond.ofBits_bits,
    bit_p_wordA1, bit_u_wordA1, bit_w_wordA1, field_rn_wordA1, field_rt_wordA1, field_imm8_wordA1]

theorem decode_wordT1 (rn rt : BitVec 4) (imm12 : BitVec 12) :
    decode .t32 (wordT1 rn rt imm12) = .instr (stepsT1 rn rt imm12) := by
  simp only [decode, decodeT32, isT1_wordT1, if_true, field_rn_wordT1, field_rt_wordT1,
    field_imm12_wordT1]

theorem decode_wordT2 (p u w : Bool) (rn rt : BitVec 4) (imm8 : BitVec 8) :
    decode .t32 (wordT2 p u w rn rt imm8) = .instr (stepsT2 p u w rn rt imm8) := by
  simp only [decode, decodeT32, isT1_wordT2, isT2_wordT2, if_true, Bool.false_eq_true, if_false,
    bit_p_wordT2, bit_u_wordT2, bit_w_wordT2, field_rn_wordT2, field_rt_wordT2, field_imm8_wordT2]

/-- Decoding a word of class A1 with a condition that is not `1111`, from its fields. -/
theorem decode_of_isA1 {v : Word} (h : isA1 v = true) (hc : field v 28 4 ≠ 15#4) :
    ∃ c, decode .a32 v = .instr (stepsA1 c (bit v 24) (bit v 23) (bit v 21) (field v 16 4)
      (field v 12 4) (field v 8 4 ++ field v 0 4)) := by
  have hall : ∀ b : BitVec 4, b ≠ 15#4 → (Cond.ofBits b).isSome = true := by decide
  obtain ⟨c, hc⟩ := Option.isSome_iff_exists.1 (hall _ hc)
  exact ⟨c, by simp only [decode, decodeA32, h, if_true, hc]⟩

/-- Decoding a word of class T1, from its fields. -/
theorem decode_of_isT1 {v : Word} (h : isT1 v = true) :
    decode .t32 v = .instr (stepsT1 (field v 16 4) (field v 12 4) (field v 0 12)) := by
  simp only [decode, decodeT32, h, if_true]

/-- Decoding a word of class T2, from its fields. -/
theorem decode_of_isT2 {v : Word} (h : isT2 v = true) :
    decode .t32 v = .instr (stepsT2 (bit v 10) (bit v 9) (bit v 8) (field v 16 4) (field v 12 4)
      (field v 0 8)) := by
  conv_lhs => rw [← wordT2_of_fields h]
  rw [decode_wordT2]

/-- A word decodes only to an instruction of the instruction set it is decoded in. -/
theorem iset_of_decode {s : ISet} {v : Word} {i : Instr} (h : decode s v = .instr i) :
    i.iset = s := by
  cases s
  · simp only [decode, decodeA32] at h
    split at h
    · split at h
      · exact nomatch h
      · cases h
        unfold stepsA1
        split
        · rfl
        · split <;> rfl
    · exact nomatch h
  · simp only [decode, decodeT32] at h
    split at h
    · cases h
      unfold stepsT1
      split
      · rfl
      · split <;> rfl
    · split at h
      · cases h
        unfold stepsT2
        repeat' split
        all_goals rfl
      · exact nomatch h

/-- The three bits `P`, `U`, `W` of class T2 as one field. -/
theorem fieldPUW_iff {v : Word} {p u w : Bool} :
    v.extractLsb' 8 3 = BitVec.ofBool p ++ BitVec.ofBool u ++ BitVec.ofBool w ↔
      v.getLsbD 10 = p ∧ v.getLsbD 9 = u ∧ v.getLsbD 8 = w := by
  constructor
  · intro h
    have hk := fun k => congrArg (fun x : BitVec 3 => x.getLsbD k) h
    have h0 := hk 0
    have h1 := hk 1
    have h2 := hk 2
    simp only [BitVec.getLsbD_extractLsb', BitVec.getLsbD_append] at h0 h1 h2
    simp at h0 h1 h2
    exact ⟨h2, h1, h0⟩
  · rintro ⟨rfl, rfl, rfl⟩
    refine BitVec.eq_of_getLsbD_eq fun i hi => ?_
    simp only [BitVec.getLsbD_extractLsb', BitVec.getLsbD_append]
    interval_cases i <;> simp

/-! ### Bytes -/

/-- The bytes of a word, read back, are the word (spec/20_memory.md R56, R57). -/
theorem wordOfBytes_byteOfWord (s : ISet) (w : Word) :
    wordOfBytes s (byteOfWord s w 0) (byteOfWord s w 1) (byteOfWord s w 2) (byteOfWord s w 3) =
      w := by
  refine BitVec.eq_of_getLsbD_eq fun i hi => ?_
  cases s <;>
    simp only [wordOfBytes, byteOfWord, BitVec.getLsbD_append, BitVec.getLsbD_extractLsb'] <;>
    interval_cases i <;> simp

end Sys2Proof
end

