-- ==== Sys2Proof/Laws/State.lean ====
section
/-! SUPPORT. One lemma per field per update of the state, so that no later proof unfolds an update. -/
namespace Sys2Proof.Machine

/-! ### `x[i] <- v` -/

@[simp] theorem State.setX_pc (s : State) (i : RegNum) (v : Word) : (s.setX i v).pc = s.pc := rfl
@[simp] theorem State.setX_flags (s : State) (i : RegNum) (v : Word) : (s.setX i v).flags = s.flags := rfl
@[simp] theorem State.setX_iset (s : State) (i : RegNum) (v : Word) : (s.setX i v).iset = s.iset := rfl
@[simp] theorem State.setX_it (s : State) (i : RegNum) (v : Word) : (s.setX i v).it = s.it := rfl
@[simp] theorem State.setX_dit (s : State) (i : RegNum) (v : Word) : (s.setX i v).dit = s.dit := rfl
@[simp] theorem State.setX_mem (s : State) (i : RegNum) (v : Word) : (s.setX i v).mem = s.mem := rfl
@[simp] theorem State.setX_fault (s : State) (i : RegNum) (v : Word) : (s.setX i v).fault = s.fault := rfl
@[simp] theorem State.setX_params (s : State) (i : RegNum) (v : Word) : (s.setX i v).params = s.params := rfl
@[simp] theorem State.setX_draws (s : State) (i : RegNum) (v : Word) : (s.setX i v).draws = s.draws := rfl

@[simp] theorem State.x_setX_self (s : State) (i : RegNum) (v : Word) : (s.setX i v).x i = v := by
  simp [State.setX, State.x]

@[simp] theorem State.x_setX_ne (s : State) {i j : RegNum} (h : j ≠ i) (v : Word) :
    (s.setX i v).x j = s.x j := by
  simp [State.setX, State.x, Fin.val_ne_of_ne (Ne.symm h)]

theorem State.x_setX (s : State) (i j : RegNum) (v : Word) :
    (s.setX i v).x j = if j = i then v else s.x j := by
  split
  · subst_vars; simp
  · simp [*]

/-- Two register files with the same contents are the same. -/
theorem State.regs_ext {s t : State} (h : ∀ r : RegNum, s.x r = t.x r) : s.regs = t.regs :=
  Vector.ext fun i hi => h ⟨i, hi⟩

/-! ### Sequencing -/

@[simp] theorem State.advance_regs (s : State) : s.advance.regs = s.regs := rfl
@[simp] theorem State.advance_flags (s : State) : s.advance.flags = s.flags := rfl
@[simp] theorem State.advance_iset (s : State) : s.advance.iset = s.iset := rfl
@[simp] theorem State.advance_dit (s : State) : s.advance.dit = s.dit := rfl
@[simp] theorem State.advance_mem (s : State) : s.advance.mem = s.mem := rfl
@[simp] theorem State.advance_fault (s : State) : s.advance.fault = s.fault := rfl
@[simp] theorem State.advance_params (s : State) : s.advance.params = s.params := rfl
@[simp] theorem State.advance_draws (s : State) : s.advance.draws = s.draws := rfl
@[simp] theorem State.advance_pc (s : State) : s.advance.pc = s.pc + 4 := rfl
@[simp] theorem State.advance_it (s : State) : s.advance.it = itAfter s.iset s.it := rfl
@[simp] theorem State.advance_x (s : State) (i : RegNum) : s.advance.x i = s.x i := rfl

@[simp] theorem State.drawn_regs (s : State) : s.drawn.regs = s.regs := rfl
@[simp] theorem State.drawn_pc (s : State) : s.drawn.pc = s.pc := rfl
@[simp] theorem State.drawn_flags (s : State) : s.drawn.flags = s.flags := rfl
@[simp] theorem State.drawn_iset (s : State) : s.drawn.iset = s.iset := rfl
@[simp] theorem State.drawn_it (s : State) : s.drawn.it = s.it := rfl
@[simp] theorem State.drawn_dit (s : State) : s.drawn.dit = s.dit := rfl
@[simp] theorem State.drawn_mem (s : State) : s.drawn.mem = s.mem := rfl
@[simp] theorem State.drawn_fault (s : State) : s.drawn.fault = s.fault := rfl
@[simp] theorem State.drawn_params (s : State) : s.drawn.params = s.params := rfl
@[simp] theorem State.drawn_draws (s : State) : s.drawn.draws = s.draws + 1 := rfl
@[simp] theorem State.drawn_x (s : State) (i : RegNum) : s.drawn.x i = s.x i := rfl

/-! ### A recorded fault -/

@[simp] theorem State.x_withFault (s : State) (f : Option Fault) (i : RegNum) :
    State.x { s with fault := f } i = s.x i := rfl

/-! ### Registers a field selects -/

theorem gp?_eq_none {r : BitVec 4} : gp? r = none ↔ r = 15#4 := by
  revert r; decide

@[simp] theorem gp?_15 : gp? 15#4 = none := rfl

theorem gp?_eq_some {r : BitVec 4} {i : RegNum} : gp? r = some i ↔ r.toNat = i.val := by
  unfold gp?
  split
  · rw [Option.some.injEq, Fin.ext_iff]
  · constructor
    · intro h; cases h
    · intro h; have := i.isLt; omega

/-- A field other than `1111` selects a register. -/
theorem gp?_of_ne {r : BitVec 4} (h : r ≠ 15#4) : ∃ i, gp? r = some i :=
  Option.ne_none_iff_exists'.1 fun hn => h (gp?_eq_none.1 hn)

/-- Two fields select the same register only when they are equal. -/
theorem gp?_inj {r q : BitVec 4} {i : RegNum} (hr : gp? r = some i) (hq : gp? q = some i) : r = q :=
  BitVec.eq_of_toNat_eq ((gp?_eq_some.1 hr).trans (gp?_eq_some.1 hq).symm)

end Sys2Proof.Machine
end

