-- ==== Sys2Proof/Laws/Ops.lean ====
section
/-! SUPPORT. What each shared operation can do, said once: the operations are not unfolded again. -/
namespace Sys2Proof.Machine

/-! ### The operations in their cases -/

theorem State.advance_eq_past (s : State) : s.advance = s.past := by
  cases h : s.iset <;> simp [State.advance, State.past, itAfter, h]

theorem takeException_eq (f : Fault) (s : State) :
    takeException f s = .next { s with fault := some f } := rfl

/-- `MEM_ADMIT` in arithmetic: an address is admitted exactly inside a window of the kind. -/
theorem admits_eq_true {p : Config.Params} {a : Word} {k : Config.AccessKind} :
    admits p a k = true ↔
      ∃ w ∈ p.memAdmit, w.kind = k ∧ w.first.toNat ≤ a.toNat ∧ a.toNat ≤ w.last.toNat := by
  simp only [admits, List.any_eq_true, Bool.and_eq_true, beq_iff_eq, decide_eq_true_eq,
    BitVec.le_def, and_assoc]

theorem admits_eq_false {p : Config.Params} {a : Word} {k : Config.AccessKind} :
    admits p a k = false ↔
      ∀ w ∈ p.memAdmit, w.kind = k → ¬ (w.first.toNat ≤ a.toNat ∧ a.toNat ≤ w.last.toNat) := by
  simp only [admits, List.any_eq_false, Bool.and_eq_true, beq_iff_eq, decide_eq_true_eq,
    BitVec.le_def, not_and, and_imp]

theorem memRead_eq_some {s : State} {a : Word} {b : Byte} :
    memRead s a = some b ↔ admits s.params a .dataRead = true ∧ s.mem.read a = b := by
  simp [memRead]

theorem memRead_eq_none {s : State} {a : Word} :
    memRead s a = none ↔ admits s.params a .dataRead = false := by
  simp [memRead]

/-- The state after a completed load (R92 to R95). -/
def State.loaded (d : Operands) (s : State) : State :=
  (if d.wback then (s.setX d.t (sext32 (s.mem.read (d.address (s.x d.n))))).setX d.n
      (d.offsetAddr (s.x d.n))
    else s.setX d.t (sext32 (s.mem.read (d.address (s.x d.n))))).advance

theorem transfer_admitted {d : Operands} {s : State}
    (h : admits s.params (d.address (s.x d.n)) .dataRead = true) :
    transfer d s = .next (s.loaded d) := by
  simp only [transfer, memRead, h, if_true, State.loaded]

theorem transfer_abort {d : Operands} {s : State}
    (h : admits s.params (d.address (s.x d.n)) .dataRead = false) :
    transfer d s = .next { s with fault := some (.dataAbort (d.address (s.x d.n))) } := by
  simp [transfer, memRead, h, takeException_eq]

/-- The state after option (3) of R108, less the advance: register `n` UNKNOWN. -/
def State.unknownAt (n : RegNum) (s : State) : State :=
  (s.setX n (Config.unknownWord s.draws)).drawn

theorem transferUnknown_admitted {d : Operands} {s : State}
    (h : admits s.params (d.address (s.x d.n)) .dataRead = true) :
    transferUnknown d s = .next (s.unknownAt d.n).advance := by
  simp only [transferUnknown, memRead, h, if_true, State.unknownAt]

theorem transferUnknown_abort {d : Operands} {s : State}
    (h : admits s.params (d.address (s.x d.n)) .dataRead = false) :
    transferUnknown d s =
      .next { (if s.params.abortCorruptsBase then s.unknownAt d.n else s) with
        fault := some (.dataAbort (d.address (s.x d.n))) } := by
  simp [transferUnknown, memRead, h, takeException_eq, State.unknownAt]

theorem withCond_some (c : Cond) (s : State) (k : Bool → Host.Outcome State Fault Refusal) :
    withCond (some c) s k = k (condHolds c s.flags) := rfl

theorem withCond_none (s : State) (k : Bool → Host.Outcome State Fault Refusal) :
    withCond none s k = .refused .illegalItstate := rfl

theorem unlessHidden_act {s : State} {passed : Bool} {act : Host.Outcome State Fault Refusal}
    (h : (s.params.undefIgnoresCond || passed) = true) : unlessHidden s passed act = act := by
  simp only [unlessHidden, h, if_true]

theorem unlessHidden_hidden {s : State} {act : Host.Outcome State Fault Refusal}
    (h : s.params.undefIgnoresCond = false) : unlessHidden s false act = .next s.advance := by
  simp [unlessHidden, h]

/-! ### Defined behaviour: no write-back, or `t ≠ n` -/

theorem loadSignedByte_passed {w : Word} {c : Cond} {d : Operands} {s : State} (hd : d.defined)
    (hc : condHolds c s.flags = true) : loadSignedByte w (some c) d s = transfer d s := by
  simp only [loadSignedByte, withCond_some, hc, if_true]
  exact if_neg hd

theorem loadSignedByte_failed {w : Word} {c : Cond} {d : Operands} {s : State} (hd : d.defined)
    (hc : condHolds c s.flags = false) : loadSignedByte w (some c) d s = .next s.advance := by
  simp only [loadSignedByte, withCond_some, hc]
  exact (if_neg hd).trans rfl

/-- `wback && n == t` (R105, R107). -/
theorem loadSignedByte_constrained {w : Word} {c : Cond} {d : Operands} {s : State}
    (hw : d.wback = true) (hn : d.n = d.t) :
    loadSignedByte w (some c) d s = constrained w (condHolds c s.flags) d s := by
  simp only [loadSignedByte, withCond_some]
  exact if_pos ⟨hw, hn⟩

/-! ### Everything a meaning can do

Every next state of every meaning is one of two: the machine went on past the instruction, or it took
an exception where it stood; what changed before that is at most the registers and the count of free
draws. -/

/-- `t` is `s` with at most the registers in `rs` and the count of draws changed. -/
def RegsOnly (rs : List RegNum) (s t : State) : Prop :=
  (∀ r, r ∉ rs → t.x r = s.x r) ∧
    t = { s with regs := t.regs, draws := t.draws }

/-- Every next state that `o` answers comes from `s` by a change of at most the registers in `rs`, then
the advance or the recording of an exception. -/
def Effect (rs : List RegNum) (s : State) (o : Host.Outcome State Fault Refusal) : Prop :=
  ∀ s', o = .next s' → ∃ t, RegsOnly rs s t ∧
    (s' = t.advance ∨ ∃ f : Fault, f.isException = true ∧ s' = { t with fault := some f })

theorem RegsOnly.refl (rs : List RegNum) (s : State) : RegsOnly rs s s := ⟨fun _ _ => rfl, rfl⟩

theorem RegsOnly.setX {rs : List RegNum} {s t : State} (h : RegsOnly rs s t) {i : RegNum}
    (hi : i ∈ rs) (v : Word) : RegsOnly rs s (t.setX i v) := by
  refine ⟨fun r hr => ?_, ?_⟩
  · rw [State.x_setX_ne _ fun he => hr (by rwa [he])]
    exact h.1 r hr
  · conv_lhs => rw [h.2]
    rfl

theorem RegsOnly.drawn {rs : List RegNum} {s t : State} (h : RegsOnly rs s t) :
    RegsOnly rs s t.drawn := by
  refine ⟨fun r hr => h.1 r hr, ?_⟩
  conv_lhs => rw [h.2]
  rfl

theorem Effect.fault (rs : List RegNum) (s : State) (f : Fault) : Effect rs s (.fault f) :=
  fun _ h => nomatch h

theorem Effect.refused (rs : List RegNum) (s : State) (r : Refusal) : Effect rs s (.refused r) :=
  fun _ h => nomatch h

theorem Effect.advance {rs : List RegNum} {s t : State} (h : RegsOnly rs s t) :
    Effect rs s (.next t.advance) := by
  rintro _ ⟨⟩
  exact ⟨t, h, .inl rfl⟩

theorem Effect.exception {rs : List RegNum} {s t : State} (h : RegsOnly rs s t) {f : Fault}
    (hf : f.isException = true) : Effect rs s (takeException f t) := by
  rintro _ ⟨⟩
  exact ⟨t, h, .inr ⟨f, hf, rfl⟩⟩

theorem transfer_effect {rs : List RegNum} (d : Operands) {s : State} (ht : d.t ∈ rs)
    (hn : d.wback = true → d.n ∈ rs) : Effect rs s (transfer d s) := by
  unfold transfer
  dsimp only
  split
  · exact Effect.exception (RegsOnly.refl rs s) rfl
  · refine Effect.advance ?_
    split
    · exact ((RegsOnly.refl rs s).setX ht _).setX (hn ‹_›) _
    · exact (RegsOnly.refl rs s).setX ht _

theorem transferUnknown_effect {rs : List RegNum} (d : Operands) {s t : State} (hs : RegsOnly rs s t)
    (hn : d.n ∈ rs) : Effect rs s (transferUnknown d t) := by
  unfold transferUnknown
  dsimp only
  split
  · refine Effect.exception ?_ rfl
    split
    · exact (hs.setX hn _).drawn
    · exact hs
  · exact Effect.advance (hs.setX hn _).drawn

theorem withCond_effect {rs : List RegNum} (c : Option Cond) {s : State}
    {k : Bool → Host.Outcome State Fault Refusal} (h : ∀ b, Effect rs s (k b)) :
    Effect rs s (withCond c s k) := by
  cases c
  · exact Effect.refused rs s _
  · exact h _

theorem unlessHidden_effect {rs : List RegNum} {s : State} (b : Bool)
    {act : Host.Outcome State Fault Refusal} (h : Effect rs s act) :
    Effect rs s (unlessHidden s b act) := by
  unfold unlessHidden
  split
  · exact h
  · exact Effect.advance (RegsOnly.refl rs s)

theorem permitted_effect {rs : List RegNum} (o : Config.CuOutcome) (w : Word) (b : Bool)
    (d : Operands) {s t : State} (hs : RegsOnly rs s t) (hn : d.n ∈ rs) :
    Effect rs s (permitted o w b d t) := by
  cases o
  · exact Effect.exception hs rfl
  · exact Effect.advance hs
  · unfold permitted
    dsimp only
    split
    · exact transferUnknown_effect d hs hn
    · exact Effect.advance hs

theorem constrained_effect {rs : List RegNum} (w : Word) (b : Bool) (d : Operands) {s : State}
    (hn : d.n ∈ rs) : Effect rs s (constrained w b d s) := by
  refine unlessHidden_effect b ?_
  split
  · exact Effect.fault rs s _
  · exact permitted_effect _ w b d (RegsOnly.refl rs s) hn
  · exact permitted_effect _ w b d (RegsOnly.refl rs s).drawn hn

/-- The whole instruction writes at most `x[t]`, and `x[n]` when it writes back (R22). -/
theorem loadSignedByte_effect {rs : List RegNum} (w : Word) (c : Option Cond) (d : Operands)
    {s : State} (ht : d.t ∈ rs) (hn : d.wback = true → d.n ∈ rs) :
    Effect rs s (loadSignedByte w c d s) := by
  refine withCond_effect c fun b => ?_
  split
  · exact constrained_effect w b d (hn (And.left ‹_›))
  · split
    · exact transfer_effect d ht hn
    · exact Effect.advance (RegsOnly.refl rs s)

theorem unpredictable_effect (rs : List RegNum) (r : UnpredictableReason) (c : Option Cond)
    (s : State) : Effect rs s (unpredictable r c s) :=
  withCond_effect c fun b => unlessHidden_effect b (Effect.fault rs s _)

theorem undefinedInstruction_effect (rs : List RegNum) (w : Word) (c : Option Cond) (s : State) :
    Effect rs s (undefinedInstruction w c s) :=
  withCond_effect c fun b => unlessHidden_effect b (Effect.exception (RegsOnly.refl rs s) rfl)

/-! ### The next states of each operation, read backwards -/

/-- A defined load that goes on advanced, loaded, or took a Data Abort where it stood. -/
theorem loadSignedByte_next {w : Word} {c : Option Cond} {d : Operands} {s s' : State}
    (hd : d.defined) (h : loadSignedByte w c d s = .next s') :
    s' = s.advance ∨ s' = s.loaded d ∨
      s' = { s with fault := some (.dataAbort (d.address (s.x d.n))) } := by
  cases c with
  | none => exact nomatch h
  | some c =>
    cases hc : condHolds c s.flags
    · rw [loadSignedByte_failed hd hc] at h
      cases h
      exact .inl rfl
    · rw [loadSignedByte_passed hd hc] at h
      cases ha : admits s.params (d.address (s.x d.n)) .dataRead
      · rw [transfer_abort ha] at h
        cases h
        exact .inr (.inr rfl)
      · rw [transfer_admitted ha] at h
        cases h
        exact .inr (.inl rfl)

/-- A completed load records no fault and draws nothing. -/
@[simp] theorem State.loaded_fault (s : State) (d : Operands) : (s.loaded d).fault = s.fault := by
  unfold State.loaded
  split <;> rfl
@[simp] theorem State.loaded_draws (s : State) (d : Operands) : (s.loaded d).draws = s.draws := by
  unfold State.loaded
  split <;> rfl

/-- An UNPREDICTABLE word goes on only as the no-op of `UNDEF_IGNORES_COND` FALSE. -/
theorem unpredictable_next {r : UnpredictableReason} {c : Option Cond} {s s' : State}
    (h : unpredictable r c s = .next s') : s' = s.advance := by
  cases c with
  | none => exact nomatch h
  | some c =>
    simp only [unpredictable, withCond, unlessHidden] at h
    split at h
    · exact nomatch h
    · cases h
      rfl

/-- An UNDEFINED word takes its exception, or is that no-op. -/
theorem undefinedInstruction_next {w : Word} {c : Option Cond} {s s' : State}
    (h : undefinedInstruction w c s = .next s') :
    s' = s.advance ∨ s' = { s with fault := some (.undefinedInstruction w) } := by
  cases c with
  | none => exact nomatch h
  | some c =>
    simp only [undefinedInstruction, withCond, unlessHidden] at h
    split at h
    · cases h
      exact .inr rfl
    · cases h
      exact .inl rfl

/-! ### What the two kinds of next state keep -/

/-- A next state of an `Effect`: everything but the registers of `rs`, the count of draws, `pc`, `it` and
`fault` is as before; without a recorded fault before, `pc` and `it` advanced and no fault is
recorded, or they stand and an exception is. -/
theorem Effect.keeps {rs : List RegNum} {s s' : State} {o : Host.Outcome State Fault Refusal}
    (h : Effect rs s o) (ho : o = .next s') :
    (∀ r, r ∉ rs → s'.x r = s.x r) ∧ s'.flags = s.flags ∧ s'.iset = s.iset ∧ s'.dit = s.dit ∧
      s'.mem = s.mem ∧ s'.params = s.params ∧
      (s'.pc = s.pc + 4 ∧ s'.it = itAfter s.iset s.it ∧ s'.fault = s.fault ∨
        s'.pc = s.pc ∧ s'.it = s.it ∧ ∃ f, f.isException = true ∧ s'.fault = some f) := by
  obtain ⟨t, ⟨hr, ht⟩, rfl | ⟨f, hf, rfl⟩⟩ := h s' ho
  · refine ⟨fun r h => hr r h, ?_⟩
    rw [ht]
    exact ⟨rfl, rfl, rfl, rfl, rfl, .inl ⟨rfl, rfl, rfl⟩⟩
  · refine ⟨fun r h => hr r h, ?_⟩
    rw [ht]
    exact ⟨rfl, rfl, rfl, rfl, rfl, .inr ⟨rfl, rfl, f, hf, rfl⟩⟩

end Sys2Proof.Machine
end

