-- ==== Sys2Proof/Laws/Exec.lean ====
section
/-! SUPPORT. What each instruction can do, said once over the shared operations. -/
namespace Sys2Proof.Machine

/-- The registers an instruction may write (spec/10_state.md R22): the destination, and the base of a
write-back form. -/
def writes : Instr → List RegNum
  | .ldrsbA1Off _ _ _ rt _ => (gp? rt).toList
  | .ldrsbA1Post _ _ rn rt _ => (gp? rt).toList ++ (gp? rn).toList
  | .ldrsbA1Pre _ _ rn rt _ => (gp? rt).toList ++ (gp? rn).toList
  | .ldrsbT1 _ rt _ => (gp? rt).toList
  | .ldrsbT2Off _ rt _ => (gp? rt).toList
  | .ldrsbT2Post _ rn rt _ => (gp? rt).toList ++ (gp? rn).toList
  | .ldrsbT2Pre _ rn rt _ => (gp? rt).toList ++ (gp? rn).toList
  | .undefinedT2 .. => []
  | .seeLdrsbtA1 .. => []
  | .seeLdrsbtT2 .. => []
  | .seePliT1 .. => []
  | .seePliT2 .. => []
  | .seeLiteralA1 .. => []
  | .seeLiteralT1 .. => []
  | .seeLiteralT2 .. => []

theorem runA1_effect {rs : List RegNum} (word : Word) (cond : Cond) (p u w : Bool)
    (rn rt : BitVec 4) (imm8 : BitVec 8) {s : State} (ht : ∀ t, gp? rt = some t → t ∈ rs)
    (hn : (!p || w) = true → ∀ n, gp? rn = some n → n ∈ rs) :
    Effect rs s (runA1 word cond p u w rn rt imm8 s) := by
  unfold runA1
  split
  · exact Effect.refused rs s _
  · split
    · exact unpredictable_effect rs _ _ s
    · exact loadSignedByte_effect _ _ _ (ht _ ‹_›) fun h => hn h _ ‹_›

theorem runT2Wback_effect {rs : List RegNum} (word : Word) (p u : Bool) (rn rt : BitVec 4)
    (imm8 : BitVec 8) {s : State} (ht : ∀ t, gp? rt = some t → t ∈ rs)
    (hn : ∀ n, gp? rn = some n → n ∈ rs) : Effect rs s (runT2Wback word p u rn rt imm8 s) := by
  unfold runT2Wback
  split
  · exact Effect.refused rs s _
  · split
    · exact unpredictable_effect rs _ _ s
    · exact loadSignedByte_effect _ _ _ (ht _ ‹_›) fun _ => hn _ ‹_›

/-- Every next state of every instruction is a change of at most the registers it writes, then the advance
or the recording of an exception. -/
theorem exec_effect (i : Instr) (s : State) : Effect (writes i) s (exec i s) := by
  cases i with
  | ldrsbA1Off cond u rn rt imm8 =>
    exact runA1_effect _ _ _ _ _ _ _ _ (by simp +contextual [writes]) (by simp)
  | ldrsbA1Post cond u rn rt imm8 =>
    exact runA1_effect _ _ _ _ _ _ _ _ (by simp +contextual [writes]) (by simp +contextual [writes])
  | ldrsbA1Pre cond u rn rt imm8 =>
    exact runA1_effect _ _ _ _ _ _ _ _ (by simp +contextual [writes]) (by simp +contextual [writes])
  | ldrsbT1 rn rt imm12 =>
    simp only [exec, execLdrsbT1]
    split
    · exact Effect.refused _ s _
    · split
      · exact Effect.refused _ s _
      · exact loadSignedByte_effect _ _ _ (by simp [writes, operandsT1, *]) (by simp [operandsT1])
  | ldrsbT2Off rn rt imm8 =>
    simp only [exec, execLdrsbT2Off]
    split
    · exact Effect.refused _ s _
    · split
      · exact Effect.refused _ s _
      · exact loadSignedByte_effect _ _ _ (by simp [writes, operandsT2, *]) (by simp [operandsT2])
  | ldrsbT2Post u rn rt imm8 =>
    exact runT2Wback_effect _ _ _ _ _ _ (by simp +contextual [writes]) (by simp +contextual [writes])
  | ldrsbT2Pre u rn rt imm8 =>
    exact runT2Wback_effect _ _ _ _ _ _ (by simp +contextual [writes]) (by simp +contextual [writes])
  | undefinedT2 u rn rt imm8 => exact undefinedInstruction_effect _ _ _ s
  | seeLdrsbtA1 => exact Effect.refused _ s _
  | seeLdrsbtT2 => exact Effect.refused _ s _
  | seePliT1 => exact Effect.refused _ s _
  | seePliT2 => exact Effect.refused _ s _
  | seeLiteralA1 => exact Effect.refused _ s _
  | seeLiteralT1 => exact Effect.refused _ s _
  | seeLiteralT2 => exact Effect.refused _ s _

/-! ### The LDRSB instructions run the shared operation -/

theorem operandsFrom_eq_some {rn rt : BitVec 4} {f : RegNum → RegNum → Operands} {d : Operands} :
    operandsFrom rn rt f = some d ↔
      ∃ n t, gp? rn = some n ∧ gp? rt = some t ∧ f n t = d := by
  simp [operandsFrom, Option.bind_eq_some_iff]

/-- An `LDRSB` neither of whose registers is 15 runs the shared operation on its decode outputs, under
its condition. -/
theorem exec_eq_loadSignedByte {i : Instr} {d : Operands} (s : State) (hd : operandsOf i = some d) :
    exec i s = loadSignedByte (encode i) (condOf s i) d s := by
  cases i <;> simp only [operandsOf, reduceCtorEq] at hd <;>
    obtain ⟨n, t, hn, ht, rfl⟩ := operandsFrom_eq_some.1 hd <;>
    simp [exec, execLdrsbA1Off, execLdrsbA1Post, execLdrsbA1Pre, execLdrsbT1, execLdrsbT2Off,
      execLdrsbT2Post, execLdrsbT2Pre, runA1, runT2Wback, condOf, hn, ht]

/-- A defined `LDRSB` whose condition passes, where the byte is admitted. -/
theorem exec_loaded {i : Instr} {d : Operands} {c : Cond} {s : State} (ho : operandsOf i = some d)
    (hd : d.defined) (hc : condOf s i = some c) (hp : condHolds c s.flags = true)
    (ha : admits s.params (d.address (s.x d.n)) .dataRead = true) :
    exec i s = .next (s.loaded d) := by
  rw [exec_eq_loadSignedByte s ho, hc, loadSignedByte_passed hd hp, transfer_admitted ha]

/-- `wback && n == t`, of any encoding. -/
theorem exec_constrained {i : Instr} {d : Operands} {c : Cond} {s : State}
    (ho : operandsOf i = some d) (hd : ¬ d.defined) (hc : condOf s i = some c) :
    exec i s = constrained (encode i) (condHolds c s.flags) d s := by
  have h : d.wback = true ∧ d.n = d.t := not_not.1 hd
  rw [exec_eq_loadSignedByte s ho, hc, loadSignedByte_constrained h.1 h.2]

/-! ### Every instruction is one of four operations -/

/-- What an instruction does, in every state: it refuses, it is UNPREDICTABLE, it is UNDEFINED, or it is
the shared operation on its decode outputs, the last three under its condition. -/
theorem exec_shape (i : Instr) :
    (∃ r, (∀ s, exec i s = .refused r) ∧ r ∈ [.seeLdrsbLiteral, .seeLdrsbt, .seePli]) ∨
    (∃ r, ∀ s, exec i s = unpredictable r (condOf s i) s) ∨
    ((∃ u rn rt imm8, i = .undefinedT2 u rn rt imm8) ∧
      ∀ s, exec i s = undefinedInstruction (encode i) (condOf s i) s) ∨
    (∃ d, operandsOf i = some d ∧ ∀ s, exec i s = loadSignedByte (encode i) (condOf s i) d s) := by
  cases h : operandsOf i with
  | some d => exact .inr (.inr (.inr ⟨d, rfl, fun s => exec_eq_loadSignedByte s h⟩))
  | none =>
    cases i with
    | undefinedT2 => exact .inr (.inr (.inl ⟨⟨_, _, _, _, rfl⟩, fun _ => rfl⟩))
    | seeLdrsbtA1 => exact .inl ⟨_, fun _ => rfl, by simp⟩
    | seeLdrsbtT2 => exact .inl ⟨_, fun _ => rfl, by simp⟩
    | seePliT1 => exact .inl ⟨_, fun _ => rfl, by simp⟩
    | seePliT2 => exact .inl ⟨_, fun _ => rfl, by simp⟩
    | seeLiteralA1 => exact .inl ⟨_, fun _ => rfl, by simp⟩
    | seeLiteralT1 => exact .inl ⟨_, fun _ => rfl, by simp⟩
    | seeLiteralT2 => exact .inl ⟨_, fun _ => rfl, by simp⟩
    | ldrsbT1 rn rt imm12 =>
      simp only [exec, execLdrsbT1]
      cases ht : gp? rt with
      | none => exact .inl ⟨_, fun _ => rfl, by simp⟩
      | some t =>
        cases hn : gp? rn with
        | none => exact .inl ⟨_, fun _ => rfl, by simp⟩
        | some n => simp [operandsOf, operandsFrom, hn, ht] at h
    | ldrsbT2Off rn rt imm8 =>
      simp only [exec, execLdrsbT2Off]
      cases ht : gp? rt with
      | none => exact .inl ⟨_, fun _ => rfl, by simp⟩
      | some t =>
        cases hn : gp? rn with
        | none => exact .inl ⟨_, fun _ => rfl, by simp⟩
        | some n => simp [operandsOf, operandsFrom, hn, ht] at h
    | ldrsbA1Off cond u rn rt imm8 | ldrsbA1Post cond u rn rt imm8 | ldrsbA1Pre cond u rn rt imm8 =>
      simp only [exec, execLdrsbA1Off, execLdrsbA1Post, execLdrsbA1Pre, runA1]
      cases hn : gp? rn with
      | none => exact .inl ⟨_, fun _ => rfl, by simp⟩
      | some n =>
        cases ht : gp? rt with
        | none => exact .inr (.inl ⟨_, fun _ => rfl⟩)
        | some t => simp [operandsOf, operandsFrom, hn, ht] at h
    | ldrsbT2Post u rn rt imm8 | ldrsbT2Pre u rn rt imm8 =>
      simp only [exec, execLdrsbT2Post, execLdrsbT2Pre, runT2Wback]
      cases hn : gp? rn with
      | none => exact .inl ⟨_, fun _ => rfl, by simp⟩
      | some n =>
        cases ht : gp? rt with
        | none => exact .inr (.inl ⟨_, fun _ => rfl⟩)
        | some t => simp [operandsOf, operandsFrom, hn, ht] at h

/-- The condition of an instruction depends on `ITSTATE` alone. -/
theorem condOf_congr {s t : State} (i : Instr) (h : t.it = s.it) : condOf t i = condOf s i := by
  cases i <;> simp only [condOf, h]

/-! ### What an instruction does not look at -/

/-- An outcome with its next state changed. -/
def mapNext (g : State → State) :
    Host.Outcome State Fault Refusal → Host.Outcome State Fault Refusal
  | .next t => .next (g t)
  | .fault f => .fault f
  | .refused r => .refused r

/-- The state with other flags, another `dit` and another memory: what an instruction reads only through
its condition, not at all, and at one address. -/
def State.viewed (f : Flags) (b : Bool) (m : Memory) (s : State) : State :=
  { s with flags := f, dit := b, mem := m }

section viewed
variable {f : Flags} {b : Bool} {m : Memory} {s : State}

theorem transfer_viewed (d : Operands)
    (hm : m.read (d.address (s.x d.n)) = s.mem.read (d.address (s.x d.n))) :
    transfer d (s.viewed f b m) = mapNext (State.viewed f b m) (transfer d s) := by
  cases ha : admits s.params (d.address (s.x d.n)) .dataRead
  · rw [transfer_abort ha]
    exact transfer_abort (s := s.viewed f b m) ha
  · rw [transfer_admitted ha]
    refine (transfer_admitted (s := s.viewed f b m) ha).trans ?_
    have hx : (s.viewed f b m).x d.n = s.x d.n := rfl
    have hr : (s.viewed f b m).mem.read (d.address (s.x d.n)) = s.mem.read (d.address (s.x d.n)) := hm
    simp only [State.loaded, hx, hr, mapNext]
    cases d.wback <;> rfl

theorem transferUnknown_viewed (d : Operands) :
    transferUnknown d (s.viewed f b m) = mapNext (State.viewed f b m) (transferUnknown d s) := by
  cases ha : admits s.params (d.address (s.x d.n)) .dataRead
  · rw [transferUnknown_abort ha]
    refine (transferUnknown_abort (s := s.viewed f b m) ha).trans ?_
    simp only [show (s.viewed f b m).params = s.params from rfl, mapNext]
    cases s.params.abortCorruptsBase <;> rfl
  · rw [transferUnknown_admitted ha]
    exact transferUnknown_admitted (s := s.viewed f b m) ha

theorem unlessHidden_viewed (p : Bool) {act act' : Host.Outcome State Fault Refusal}
    (h : act' = mapNext (State.viewed f b m) act) :
    unlessHidden (s.viewed f b m) p act' = mapNext (State.viewed f b m) (unlessHidden s p act) := by
  unfold unlessHidden
  simp only [show (s.viewed f b m).params = s.params from rfl]
  cases (s.params.undefIgnoresCond || p)
  · rfl
  · exact h

theorem permitted_viewed (o : Config.CuOutcome) (w : Word) (p : Bool) (d : Operands) :
    permitted o w p d (s.viewed f b m) = mapNext (State.viewed f b m) (permitted o w p d s) := by
  cases o
  · rfl
  · rfl
  · cases p
    · rfl
    · exact transferUnknown_viewed d

theorem constrained_viewed (w : Word) (p : Bool) (d : Operands) :
    constrained w p d (s.viewed f b m) = mapNext (State.viewed f b m) (constrained w p d s) := by
  refine unlessHidden_viewed p ?_
  simp only [show (s.viewed f b m).params = s.params from rfl]
  cases s.params.cuWback
  · rfl
  · exact permitted_viewed _ w p d
  · exact permitted_viewed (s := s.drawn) _ w p d

theorem loadSignedByte_viewed (w : Word) {c : Option Cond} (d : Operands)
    (hc : ∀ k, c = some k → condHolds k f = condHolds k s.flags)
    (hm : ∀ k, c = some k → condHolds k s.flags = true →
      m.read (d.address (s.x d.n)) = s.mem.read (d.address (s.x d.n))) :
    loadSignedByte w c d (s.viewed f b m) = mapNext (State.viewed f b m) (loadSignedByte w c d s) := by
  cases c with
  | none => rfl
  | some c =>
    simp only [loadSignedByte, withCond_some, show (s.viewed f b m).flags = f from rfl, hc c rfl]
    split
    · exact constrained_viewed w _ d
    · split
      · exact transfer_viewed d (hm c rfl ‹_›)
      · rfl

/-- An instruction does the same with other flags under which its condition answers the same, another
`dit`, and another memory that agrees at the byte it reads; it leaves them as they are. -/
theorem exec_viewed (i : Instr)
    (hc : ∀ k, condOf s i = some k → condHolds k f = condHolds k s.flags)
    (hm : ∀ d k, operandsOf i = some d → condOf s i = some k → condHolds k s.flags = true →
      m.read (d.address (s.x d.n)) = s.mem.read (d.address (s.x d.n))) :
    exec i (s.viewed f b m) = mapNext (State.viewed f b m) (exec i s) := by
  have hco : condOf (s.viewed f b m) i = condOf s i := condOf_congr i rfl
  rcases exec_shape i with ⟨r, h, -⟩ | ⟨r, h⟩ | ⟨-, h⟩ | ⟨d, ho, h⟩ <;> simp only [h, hco]
  · rfl
  · cases hcc : condOf s i with
    | none => rfl
    | some c =>
      simp only [unpredictable, withCond_some, show (s.viewed f b m).flags = f from rfl, hc c hcc]
      exact unlessHidden_viewed _ rfl
  · cases hcc : condOf s i with
    | none => rfl
    | some c =>
      simp only [undefinedInstruction, withCond_some, show (s.viewed f b m).flags = f from rfl,
        hc c hcc]
      exact unlessHidden_viewed _ rfl
  · exact loadSignedByte_viewed _ d hc fun k hk => hm d k ho hk

end viewed

end Sys2Proof.Machine
end

