-- ==== Sys2Proof/Laws/Memory.lean ====
section
/-! SUPPORT. The laws of memory: a read after a write, and that a write keeps the canonical form. -/
namespace Sys2Proof.Machine

@[simp] theorem Memory.readAt_nil (x : Nat) : Memory.readAt [] x = unlistedByte := rfl

/-- The tail of a list in canonical form is in canonical form, and its addresses lie above the head's. -/
theorem Memory.wf_cons {c : Host.Cell} {m : Memory} (h : Memory.wf (c :: m)) :
    Memory.wf m ∧ (∀ d ∈ m, c.1 < d.1) ∧ c.1 < 2 ^ 32 ∧ c.2 ≠ unlistedByte := by
  obtain ⟨hp, hb⟩ := h
  simp only [List.map_cons, List.pairwise_cons, List.mem_map, forall_exists_index, and_imp] at hp
  refine ⟨⟨hp.2, fun d hd => hb d (List.mem_cons_of_mem _ hd)⟩, ?_, hb c List.mem_cons_self⟩
  exact fun d hd => hp.1 d.1 d hd rfl

/-- A head below every address of a list in canonical form extends it. -/
theorem Memory.wf_cons_of {c : Host.Cell} {m : Memory} (hm : Memory.wf m)
    (hlt : ∀ d ∈ m, c.1 < d.1) (hb : c.1 < 2 ^ 32) (hv : c.2 ≠ unlistedByte) :
    Memory.wf (c :: m) := by
  refine ⟨?_, ?_⟩
  · simp only [List.map_cons, List.pairwise_cons, List.mem_map, forall_exists_index, and_imp]
    exact ⟨fun _ d hd he => he ▸ hlt d hd, hm.1⟩
  · intro d hd
    rcases List.mem_cons.1 hd with rfl | hd
    · exact ⟨hb, hv⟩
    · exact hm.2 d hd

/-- An address below every listed one reads as an unlisted byte. -/
theorem Memory.readAt_of_lt {m : Memory} {x : Nat} (h : ∀ d ∈ m, x < d.1) :
    m.readAt x = unlistedByte := by
  induction m with
  | nil => rfl
  | cons c m ih =>
    have hc : c.1 ≠ x := by have := h c List.mem_cons_self; omega
    simp only [Memory.readAt, hc, if_false]
    exact ih fun d hd => h d (List.mem_cons_of_mem _ hd)

/-- The addresses listed after a write are the old ones and the one written. -/
theorem Memory.mem_writeAt {m : Memory} {x : Nat} {v : Byte} {d : Host.Cell}
    (h : d ∈ m.writeAt x v) : d ∈ m ∨ d = (x, v) ∧ v ≠ unlistedByte := by
  induction m with
  | nil => simp only [Memory.writeAt] at h; split at h <;> simp_all
  | cons c m ih =>
    simp only [Memory.writeAt] at h
    split at h
    · split at h <;> simp_all; tauto
    · split at h
      · split at h <;> simp_all; tauto
      · rcases List.mem_cons.1 h with rfl | h
        · exact .inl List.mem_cons_self
        · rcases ih h with h | h
          · exact .inl (List.mem_cons_of_mem _ h)
          · exact .inr h

/-- A write inside the address space keeps the canonical form. -/
theorem Memory.wf_writeAt {m : Memory} (hm : m.wf) {x : Nat} (hx : x < 2 ^ 32) (v : Byte) :
    (m.writeAt x v).wf := by
  induction m with
  | nil =>
    simp only [Memory.writeAt]
    split
    · exact hm
    · exact Memory.wf_cons_of hm (by simp) hx ‹_›
  | cons c m ih =>
    obtain ⟨hm', hlt, hb, hv⟩ := Memory.wf_cons hm
    simp only [Memory.writeAt]
    split
    · split
      · exact hm
      · refine Memory.wf_cons_of hm ?_ hx ‹_›
        intro d hd
        rcases List.mem_cons.1 hd with rfl | hd
        · assumption
        · exact Nat.lt_trans ‹_› (hlt d hd)
    · split
      · subst_vars
        split
        · exact hm'
        · exact Memory.wf_cons_of hm' hlt hb ‹_›
      · refine Memory.wf_cons_of (ih hm') ?_ hb hv
        intro d hd
        rcases Memory.mem_writeAt hd with hd | ⟨rfl, -⟩
        · exact hlt d hd
        · simp only; omega

/-- A write of a byte keeps the canonical form. -/
theorem Memory.wf_write {m : Memory} (hm : m.wf) (a : Word) (v : Byte) : (m.write a v).wf :=
  Memory.wf_writeAt hm a.isLt v

/-- Placing a word keeps the canonical form. -/
theorem Memory.wf_writeWord {m : Memory} (hm : m.wf) (s : ISet) (pc w : Word) :
    (m.writeWord s pc w).wf :=
  Memory.wf_write (Memory.wf_write (Memory.wf_write (Memory.wf_write hm _ _) _ _) _ _) _ _

/-- A read of another address gives what it gave. -/
theorem Memory.readAt_writeAt_ne {m : Memory} {x y : Nat} (h : y ≠ x) (v : Byte) :
    (m.writeAt x v).readAt y = m.readAt y := by
  induction m with
  | nil => simp only [Memory.writeAt]; split <;> simp [Memory.readAt, Ne.symm h]
  | cons c m ih =>
    simp only [Memory.writeAt]
    split
    · split <;> simp [Memory.readAt, Ne.symm h]
    · split
      · subst_vars
        split <;> simp [Memory.readAt, Ne.symm h]
      · simp [Memory.readAt, ih]

/-- A read of the written address gives the byte written. -/
theorem Memory.readAt_writeAt_self {m : Memory} (hm : m.wf) (x : Nat) (v : Byte) :
    (m.writeAt x v).readAt x = v := by
  induction m with
  | nil => simp only [Memory.writeAt]; split <;> simp_all [Memory.readAt]
  | cons c m ih =>
    obtain ⟨hm', hlt, -, -⟩ := Memory.wf_cons hm
    simp only [Memory.writeAt]
    split
    · split
      · subst_vars
        refine Memory.readAt_of_lt fun d hd => ?_
        rcases List.mem_cons.1 hd with rfl | hd
        · assumption
        · exact Nat.lt_trans ‹_› (hlt d hd)
      · simp [Memory.readAt]
    · split
      · subst_vars
        split
        · subst_vars
          exact Memory.readAt_of_lt hlt
        · simp [Memory.readAt]
      · have : c.1 ≠ x := by omega
        simp [Memory.readAt, this, ih hm']

/-- A read after a write to the same address. -/
theorem Memory.read_write_self {m : Memory} (hm : m.wf) (a : Word) (v : Byte) :
    (m.write a v).read a = v := Memory.readAt_writeAt_self hm _ v

/-- A read after a write to another address. -/
theorem Memory.read_write_ne (m : Memory) {a b : Word} (h : b ≠ a) (v : Byte) :
    (m.write a v).read b = m.read b :=
  Memory.readAt_writeAt_ne (fun he => h (BitVec.eq_of_toNat_eq he)) v

end Sys2Proof.Machine
end

