-- ==== Sys2Proof/Laws/PerInstr.lean ====
section
/-! SUPPORT. The family `TableRow`: the word of every instruction has the fixed bits that its row of
spec/opcode_table.json gives ("mask" and "match", copied from the table). -/
namespace Sys2Proof.Laws

/-- The row's "mask" and "match". -/
def TableRow.maskMatch : Instr → Word × Word
  | .ldrsbA1Off .. => (0x0F7000F0, 0x015000D0)
  | .ldrsbA1Post .. => (0x0F7000F0, 0x005000D0)
  | .ldrsbA1Pre .. => (0x0F7000F0, 0x017000D0)
  | .ldrsbT1 .. => (0xFFF00000, 0xF9900000)
  | .ldrsbT2Off .. => (0xFFF00F00, 0xF9100C00)
  | .ldrsbT2Post .. => (0xFFF00D00, 0xF9100900)
  | .ldrsbT2Pre .. => (0xFFF00D00, 0xF9100D00)
  | .undefinedT2 .. => (0xFFF00D00, 0xF9100800)
  | .seeLdrsbtA1 .. => (0x0F7000F0, 0x007000D0)
  | .seeLdrsbtT2 .. => (0xFFF00F00, 0xF9100E00)
  | .seePliT1 .. => (0xFFF0F000, 0xF990F000)
  | .seePliT2 .. => (0xFFF0FF00, 0xF910FC00)
  | .seeLiteralA1 .. => (0x0E5F00F0, 0x005F00D0)
  | .seeLiteralT1 .. => (0xFFFF0000, 0xF99F0000)
  | .seeLiteralT2 .. => (0xFFFF0800, 0xF91F0800)

/-- The word of the instruction matches its row. -/
def TableRow.Statement (i : Instr) : Prop :=
  encode i &&& (TableRow.maskMatch i).1 = (TableRow.maskMatch i).2

theorem TableRow.ldrsbA1Off (cond : Cond) (u : Bool) (rn rt : BitVec 4) (imm8 : BitVec 8) :
    TableRow.Statement (.ldrsbA1Off cond u rn rt imm8) := by
  refine BitVec.eq_of_getLsbD_eq fun i hi => ?_
  simp only [encode, wordA1, TableRow.maskMatch, BitVec.getLsbD_and, BitVec.getLsbD_append]
  interval_cases i <;> simp

theorem TableRow.ldrsbA1Post (cond : Cond) (u : Bool) (rn rt : BitVec 4) (imm8 : BitVec 8) :
    TableRow.Statement (.ldrsbA1Post cond u rn rt imm8) := by
  refine BitVec.eq_of_getLsbD_eq fun i hi => ?_
  simp only [encode, wordA1, TableRow.maskMatch, BitVec.getLsbD_and, BitVec.getLsbD_append]
  interval_cases i <;> simp

theorem TableRow.ldrsbA1Pre (cond : Cond) (u : Bool) (rn rt : BitVec 4) (imm8 : BitVec 8) :
    TableRow.Statement (.ldrsbA1Pre cond u rn rt imm8) := by
  refine BitVec.eq_of_getLsbD_eq fun i hi => ?_
  simp only [encode, wordA1, TableRow.maskMatch, BitVec.getLsbD_and, BitVec.getLsbD_append]
  interval_cases i <;> simp

theorem TableRow.ldrsbT1 (rn rt : BitVec 4) (imm12 : BitVec 12) :
    TableRow.Statement (.ldrsbT1 rn rt imm12) := by
  refine BitVec.eq_of_getLsbD_eq fun i hi => ?_
  simp only [encode, wordT1, TableRow.maskMatch, BitVec.getLsbD_and, BitVec.getLsbD_append]
  interval_cases i <;> simp

theorem TableRow.ldrsbT2Off (rn rt : BitVec 4) (imm8 : BitVec 8) :
    TableRow.Statement (.ldrsbT2Off rn rt imm8) := by
  refine BitVec.eq_of_getLsbD_eq fun i hi => ?_
  simp only [encode, wordT2, TableRow.maskMatch, BitVec.getLsbD_and, BitVec.getLsbD_append]
  interval_cases i <;> simp

theorem TableRow.ldrsbT2Post (u : Bool) (rn rt : BitVec 4) (imm8 : BitVec 8) :
    TableRow.Statement (.ldrsbT2Post u rn rt imm8) := by
  refine BitVec.eq_of_getLsbD_eq fun i hi => ?_
  simp only [encode, wordT2, TableRow.maskMatch, BitVec.getLsbD_and, BitVec.getLsbD_append]
  interval_cases i <;> simp

theorem TableRow.ldrsbT2Pre (u : Bool) (rn rt : BitVec 4) (imm8 : BitVec 8) :
    TableRow.Statement (.ldrsbT2Pre u rn rt imm8) := by
  refine BitVec.eq_of_getLsbD_eq fun i hi => ?_
  simp only [encode, wordT2, TableRow.maskMatch, BitVec.getLsbD_and, BitVec.getLsbD_append]
  interval_cases i <;> simp

theorem TableRow.undefinedT2 (u : Bool) (rn rt : BitVec 4) (imm8 : BitVec 8) :
    TableRow.Statement (.undefinedT2 u rn rt imm8) := by
  refine BitVec.eq_of_getLsbD_eq fun i hi => ?_
  simp only [encode, wordT2, TableRow.maskMatch, BitVec.getLsbD_and, BitVec.getLsbD_append]
  interval_cases i <;> simp

theorem TableRow.seeLdrsbtA1 (cond : Cond) (u : Bool) (rn rt : BitVec 4) (imm8 : BitVec 8) :
    TableRow.Statement (.seeLdrsbtA1 cond u rn rt imm8) := by
  refine BitVec.eq_of_getLsbD_eq fun i hi => ?_
  simp only [encode, wordA1, TableRow.maskMatch, BitVec.getLsbD_and, BitVec.getLsbD_append]
  interval_cases i <;> simp

theorem TableRow.seeLdrsbtT2 (rn rt : BitVec 4) (imm8 : BitVec 8) :
    TableRow.Statement (.seeLdrsbtT2 rn rt imm8) := by
  refine BitVec.eq_of_getLsbD_eq fun i hi => ?_
  simp only [encode, wordT2, TableRow.maskMatch, BitVec.getLsbD_and, BitVec.getLsbD_append]
  interval_cases i <;> simp

theorem TableRow.seePliT1 (rn : BitVec 4) (imm12 : BitVec 12) :
    TableRow.Statement (.seePliT1 rn imm12) := by
  refine BitVec.eq_of_getLsbD_eq fun i hi => ?_
  simp only [encode, wordT1, TableRow.maskMatch, BitVec.getLsbD_and, BitVec.getLsbD_append]
  interval_cases i <;> simp

theorem TableRow.seePliT2 (rn : BitVec 4) (imm8 : BitVec 8) :
    TableRow.Statement (.seePliT2 rn imm8) := by
  refine BitVec.eq_of_getLsbD_eq fun i hi => ?_
  simp only [encode, wordT2, TableRow.maskMatch, BitVec.getLsbD_and, BitVec.getLsbD_append]
  interval_cases i <;> simp

theorem TableRow.seeLiteralA1 (cond : Cond) (p u w : Bool) (rt : BitVec 4) (imm8 : BitVec 8) :
    TableRow.Statement (.seeLiteralA1 cond p u w rt imm8) := by
  refine BitVec.eq_of_getLsbD_eq fun i hi => ?_
  simp only [encode, wordA1, TableRow.maskMatch, BitVec.getLsbD_and, BitVec.getLsbD_append]
  interval_cases i <;> simp

theorem TableRow.seeLiteralT1 (rt : BitVec 4) (imm12 : BitVec 12) :
    TableRow.Statement (.seeLiteralT1 rt imm12) := by
  refine BitVec.eq_of_getLsbD_eq fun i hi => ?_
  simp only [encode, wordT1, TableRow.maskMatch, BitVec.getLsbD_and, BitVec.getLsbD_append]
  interval_cases i <;> simp

theorem TableRow.seeLiteralT2 (p u w : Bool) (rt : BitVec 4) (imm8 : BitVec 8) :
    TableRow.Statement (.seeLiteralT2 p u w rt imm8) := by
  refine BitVec.eq_of_getLsbD_eq fun i hi => ?_
  simp only [encode, wordT2, TableRow.maskMatch, BitVec.getLsbD_and, BitVec.getLsbD_append]
  interval_cases i <;> simp

end Sys2Proof.Laws
end

