-- ==== Sys2Proof/Laws/Step.lean ====
section
/-! SUPPORT. What a step can do, said once. -/
namespace Sys2Proof.Machine

/-- Alignment in arithmetic. -/
theorem pcAligned_iff {s : ISet} {pc : Word} :
    pcAligned s pc = true ↔ pc.toNat % (if s = .a32 then 4 else 2) = 0 := by
  cases s <;>
    simp [pcAligned, ← BitVec.toNat_inj, BitVec.extractLsb'_toNat]

theorem pcWraps_iff {pc : Word} : pcWraps pc = true ↔ 0xFFFFFFFC ≤ pc.toNat := by
  simp only [pcWraps, decide_eq_true_eq, BitVec.le_def]
  rfl

/-- In a state ready to fetch, the fetch gives what the word at `pc` decodes to. -/
theorem fetchInstr_ready {s : State} (h : FetchReady s) :
    fetchInstr s = ofDecoded (decode s.iset (fetchWord s)) := by
  obtain ⟨⟨hf, ha, hi⟩, hh, hw, hm⟩ := h
  simp only [fetchInstr, hf, hh, ha, hi, hw, hm, if_false, Bool.false_eq_true,
    Bool.true_eq_false]

/-- A fetch that gives an instruction is of a state ready to fetch, whose word decodes to it. -/
theorem fetchInstr_eq_next {s : State} {i : Instr} (h : fetchInstr s = .next i) :
    FetchReady s ∧ decode s.iset (fetchWord s) = .instr i := by
  unfold fetchInstr at h
  split at h
  · exact nomatch h
  · rename_i hf
    split at h
    · exact nomatch h
    rename_i hh
    split at h
    · exact nomatch h
    rename_i ha
    split at h
    · exact nomatch h
    rename_i hi
    split at h
    · exact nomatch h
    rename_i hw
    split at h
    · exact nomatch h
    rename_i hm
    cases hd : decode s.iset (fetchWord s) with
    | notLdrsbImmediate => rw [hd] at h; exact nomatch h
    | instr j =>
      rw [hd] at h
      cases h
      exact ⟨⟨⟨hf, by simpa using ha, by simpa using hi⟩, hh, by simpa using hw,
        by simpa using hm⟩, rfl⟩

/-- A step that goes on runs one instruction, the one the word at `pc` decodes to, from a state ready
to fetch. -/
theorem step_eq_next {s s' : State} (h : step s = .next s') :
    ∃ i, FetchReady s ∧ decode s.iset (fetchWord s) = .instr i ∧ exec i s = .next s' := by
  unfold step at h
  split at h
  · rename_i i hi
    exact ⟨i, (fetchInstr_eq_next hi).1, (fetchInstr_eq_next hi).2, h⟩
  · exact nomatch h
  · exact nomatch h

/-- A step of a state ready to fetch whose word decodes to `i` runs `i`. -/
theorem step_of_ready {s : State} {i : Instr} (h : FetchReady s)
    (hi : decode s.iset (fetchWord s) = .instr i) : step s = exec i s := by
  simp only [step, fetchInstr_ready h, hi, ofDecoded]

/-- A recorded fault stops every step. -/
theorem step_faulted {s : State} {f : Fault} (h : s.fault = some f) : step s = .fault f := by
  simp only [step, fetchInstr, h]

/-- A run that goes on went on at its first step. -/
theorem run_succ_next {k : Nat} {s t : State} (h : Sys2Proof.core.run (k + 1) s = .next t) :
    ∃ u, step s = .next u ∧ Sys2Proof.core.run k u = .next t := by
  simp only [Host.Core.run] at h
  split at h
  · exact ⟨_, ‹_›, h⟩
  · exact nomatch h
  · exact nomatch h

theorem run_succ_of {k : Nat} {s u : State} (h : step s = .next u) :
    Sys2Proof.core.run (k + 1) s = Sys2Proof.core.run k u := by
  simp only [Host.Core.run, show Sys2Proof.core.step s = .next u from h]

end Sys2Proof.Machine
end

