-- ==== Sys2Proof/Tests/Slice0.lean ====
section
/-! SUPPORT. The model's own tests. The expected results are those of spec/95_test_vectors.md (sections 2
and 3) and of the rules named; a witness shows that an obligation's hypotheses can be met together. -/
namespace Sys2Proof.Tests
open Sys2Proof.Machine

/-! ### Helpers -/

/-- The outcome is a next state with a property. -/
def nextWith (o : Host.Outcome State Fault Refusal) (p : State → Bool) : Bool :=
  match o with
  | .next s => p s
  | .fault _ => false
  | .refused _ => false

def faultIs (o : Host.Outcome State Fault Refusal) (f : Fault) : Bool :=
  match o with
  | .next _ => false
  | .fault g => g == f
  | .refused _ => false

def refusedIs (o : Host.Outcome State Fault Refusal) (r : Refusal) : Bool :=
  match o with
  | .next _ => false
  | .fault _ => false
  | .refused q => q == r

/-- One instruction at `0x00100000`, as spec/95_test_vectors.md section 3 lays it out: registers, and one data
byte. -/
def prog (iset : ISet) (w : Word) (regs : List (RegNum × Word)) (addr : Word) (b : Byte) : State :=
  regs.foldl (fun s r => s.setX r.1 r.2)
    { State.reset with
      iset
      pc := 0x00100000
      mem := (Memory.writeWord [] iset 0x00100000 w).write addr b }

/-! ### Ill-formed terms (one refused term for each check of `Instr.wellFormed` and `Instr.predictable`) -/

theorem test_wf_a1Off_rn15 : (Instr.ldrsbA1Off .al true 15 0 0).wellFormed = false := by decide
theorem test_wf_a1Post_rn15 : (Instr.ldrsbA1Post .al true 15 0 0).wellFormed = false := by decide
theorem test_wf_a1Pre_rn15 : (Instr.ldrsbA1Pre .al true 15 0 0).wellFormed = false := by decide
theorem test_wf_t1_rn15 : (Instr.ldrsbT1 15 0 0).wellFormed = false := by decide
theorem test_wf_t1_rt15 : (Instr.ldrsbT1 0 15 0).wellFormed = false := by decide
theorem test_wf_t2Off_rn15 : (Instr.ldrsbT2Off 15 0 0).wellFormed = false := by decide
theorem test_wf_t2Off_rt15 : (Instr.ldrsbT2Off 0 15 0).wellFormed = false := by decide
theorem test_wf_t2Post_rn15 : (Instr.ldrsbT2Post true 15 0 0).wellFormed = false := by decide
theorem test_wf_t2Pre_rn15 : (Instr.ldrsbT2Pre true 15 0 0).wellFormed = false := by decide
theorem test_wf_undefined_rn15 : (Instr.undefinedT2 true 15 0 0).wellFormed = false := by decide
theorem test_wf_ldrsbtA1_rn15 : (Instr.seeLdrsbtA1 .al true 15 0 0).wellFormed = false := by decide
theorem test_wf_ldrsbtT2_rn15 : (Instr.seeLdrsbtT2 15 0 0).wellFormed = false := by decide
theorem test_wf_literalT1_rt15 : (Instr.seeLiteralT1 15 0).wellFormed = false := by decide
theorem test_wf_literalT2_pli :
    (Instr.seeLiteralT2 true false false 15 0).wellFormed = false := by decide
theorem test_predictable_rt15 : (Instr.ldrsbA1Off .al true 1 15 0).predictable = false := by decide
theorem test_predictable_wback : (Instr.ldrsbT2Pre true 1 1 0).predictable = false := by decide
theorem test_predictable_offset_same : (Instr.ldrsbA1Off .al true 1 1 1).predictable = true := by
  decide

/-! ### Decoding, by words of spec/95_test_vectors.md section 2 -/

/-- Written out field by field from spec/30_encoding.md R61. -/
theorem test_decode_a1_by_bits :
    decode .a32 (0b1110#4 ++ 0b000#3 ++ 0b1#1 ++ 0b1#1 ++ 0b1#1 ++ 0b0#1 ++ 0b1#1 ++ 0b0001#4 ++ 0b0000#4
      ++ 0b0000#4 ++ 0b1#1 ++ 0b10#2 ++ 0b1#1 ++ 0b0100#4) =
    .instr (.ldrsbA1Off .al true 1 0 4) := by decide
/-- R62. -/
theorem test_decode_t1_by_bits :
    decode .t32 (0b111110011#9 ++ 0b00#2 ++ 0b1#1 ++ 0b0011#4 ++ 0b0010#4 ++ 0b111111111111#12) =
    .instr (.ldrsbT1 3 2 4095) := by decide
/-- R63. -/
theorem test_decode_t2_by_bits :
    decode .t32 (0b111110010#9 ++ 0b00#2 ++ 0b1#1 ++ 0b0001#4 ++ 0b0000#4 ++ 0b1#1 ++ 0b0#1 ++ 0b1#1
      ++ 0b1#1 ++ 0b00000100#8) =
    .instr (.ldrsbT2Post true 1 0 4) := by decide

theorem test_decode_a1Off : decode .a32 0xE1D87FDF = .instr (.ldrsbA1Off .al true 8 7 255) ∧
    decode .a32 0xE15100D0 = .instr (.ldrsbA1Off .al false 1 0 0) ∧
    decode .a32 0x01D100D4 = .instr (.ldrsbA1Off .eq true 1 0 4) ∧
    decode .a32 0xE1D1F0D0 = .instr (.ldrsbA1Off .al true 1 15 0) := by decide
theorem test_decode_a1Post : decode .a32 0xE0D320D1 = .instr (.ldrsbA1Post .al true 3 2 1) ∧
    decode .a32 0xE05320D1 = .instr (.ldrsbA1Post .al false 3 2 1) := by decide
theorem test_decode_a1Pre : decode .a32 0xE1F542D3 = .instr (.ldrsbA1Pre .al true 5 4 0x23) ∧
    decode .a32 0xE17542D3 = .instr (.ldrsbA1Pre .al false 5 4 0x23) := by decide
theorem test_decode_t1 : decode .t32 0xF9910004 = .instr (.ldrsbT1 1 0 4) ∧
    decode .t32 0xF99DD001 = .instr (.ldrsbT1 13 13 1) := by decide
theorem test_decode_t2Off : decode .t32 0xF9110CFF = .instr (.ldrsbT2Off 1 0 255) ∧
    decode .t32 0xF9111C04 = .instr (.ldrsbT2Off 1 1 4) := by decide
theorem test_decode_t2Post : decode .t32 0xF9110904 = .instr (.ldrsbT2Post false 1 0 4) ∧
    decode .t32 0xF911FB04 = .instr (.ldrsbT2Post true 1 15 4) := by decide
theorem test_decode_t2Pre : decode .t32 0xF9110F04 = .instr (.ldrsbT2Pre true 1 0 4) ∧
    decode .t32 0xF9111F04 = .instr (.ldrsbT2Pre true 1 1 4) := by decide
theorem test_decode_undefined : decode .t32 0xF9110804 = .instr (.undefinedT2 false 1 0 4) ∧
    decode .t32 0xF911F804 = .instr (.undefinedT2 false 1 15 4) := by decide
theorem test_decode_ldrsbt : decode .a32 0xE0F100D4 = .instr (.seeLdrsbtA1 .al true 1 0 4) ∧
    decode .t32 0xF9110E04 = .instr (.seeLdrsbtT2 1 0 4) ∧
    decode .t32 0xF911FE04 = .instr (.seeLdrsbtT2 1 15 4) := by decide
theorem test_decode_pli : decode .t32 0xF991F004 = .instr (.seePliT1 1 4) ∧
    decode .t32 0xF99FF004 = .instr (.seePliT1 15 4) ∧
    decode .t32 0xF911FC04 = .instr (.seePliT2 1 4) ∧
    decode .t32 0xF91FFC04 = .instr (.seePliT2 15 4) := by decide
theorem test_decode_literal :
    decode .a32 0xE1DF00D4 = .instr (.seeLiteralA1 .al true true false 0 4) ∧
    decode .a32 0xE0FF00D4 = .instr (.seeLiteralA1 .al false true true 0 4) ∧
    decode .t32 0xF99F0004 = .instr (.seeLiteralT1 0 4) ∧
    decode .t32 0xF91F0804 = .instr (.seeLiteralT2 false false false 0 4) := by decide
/-- Words of no class. -/
theorem test_decode_a32_rejects : decode .a32 0xF1D100D4 = .notLdrsbImmediate ∧
    decode .a32 0xE19100D4 = .notLdrsbImmediate ∧ decode .a32 0xE1C100D4 = .notLdrsbImmediate ∧
    decode .a32 0xE1D100B4 = .notLdrsbImmediate ∧ decode .a32 0xE1D100F4 = .notLdrsbImmediate ∧
    decode .a32 0xE3D100D4 = .notLdrsbImmediate ∧ decode .a32 0xF9910004 = .notLdrsbImmediate := by
  decide
theorem test_decode_t32_rejects : decode .t32 0xF9110004 = .notLdrsbImmediate ∧
    decode .t32 0xF9310C04 = .notLdrsbImmediate ∧ decode .t32 0xF9010C04 = .notLdrsbImmediate ∧
    decode .t32 0xE1D100D4 = .notLdrsbImmediate := by decide

/-- "Bytes at ascending addresses" of spec/95_test_vectors.md section 2, both ways (R56, R57). -/
theorem test_bytes_a32 : wordOfBytes .a32 0xD4 0x00 0xD1 0xE1 = 0xE1D100D4 ∧
    byteOfWord .a32 0xE1D100D4 0 = 0xD4 ∧ byteOfWord .a32 0xE1D100D4 3 = 0xE1 := by decide
theorem test_bytes_t32 : wordOfBytes .t32 0x93 0xF9 0xFF 0x2F = 0xF9932FFF ∧
    byteOfWord .t32 0xF9932FFF 0 = 0x93 ∧ byteOfWord .t32 0xF9932FFF 2 = 0xFF := by decide
theorem test_decodeTableWord : decodeTableWord 32 0xE15100D4 = some (.ldrsbA1Off .al false 1 0 4) ∧
    decodeTableWord 32 0xF9110D04 = some (.ldrsbT2Pre false 1 0 4) ∧
    decodeTableWord 32 0xF9310C04 = none := by decide

/-! ### The assembler (spec/95_test_vectors.md section 2) -/

theorem test_assemble_a32 : assemble .a32 .al ⟨none, none, 4, 5, .preIndexed ⟨some .minus, 0x23⟩⟩ =
    some (.ldrsbA1Pre .al false 5 4 0x23) ∧
    assemble .a32 .al ⟨none, none, 0, 1, .offset (some ⟨none, 256⟩)⟩ = none := by decide
/-- `LDRSB.W r0, [r1]` is T1 (spec/90_conflicts.md C3), `#-0` is T2, `.N` cannot be had (R84), and a
condition other than the one `ITSTATE` gives is refused. -/
theorem test_assemble_t32 :
    assemble .t32 .al ⟨none, some .wide, 0, 1, .offset none⟩ = some (.ldrsbT1 1 0 0) ∧
    assemble .t32 .al ⟨none, none, 0, 1, .offset (some ⟨some .minus, 0⟩)⟩ =
      some (.ldrsbT2Off 1 0 0) ∧
    assemble .t32 .al ⟨none, some .narrow, 0, 1, .offset none⟩ = none ∧
    assemble .t32 .ne ⟨none, none, 0, 1, .offset none⟩ = none := by decide
theorem test_text : AsmLine.text ⟨some .eq, some .wide, 0, 1, .postIndexed ⟨some .minus, 4⟩⟩ =
    "LDRSBEQ.W R0, [R1], #-4" := by decide

/-! ### One step (spec/95_test_vectors.md section 3) -/

theorem test_a1Off : nextWith (step (prog .a32 0xE1D100D4 [(1, 0x1000)] 0x1004 0x80))
    (fun s => s.x 0 == 0xFFFFFF80 && s.x 1 == 0x1000 && s.pc == 0x00100004) = true := by decide
/-- The address wraps below 0; the condition of `LDRSBEQ` fails. -/
theorem test_a1Off_wrap : nextWith (step (prog .a32 0xE15870D1 [(8, 0)] 0xFFFFFFFF 0x80))
    (fun s => s.x 7 == 0xFFFFFF80) = true ∧
    nextWith (step (prog .a32 0x01D100D4 [(0, 0xAAAAAAAA), (1, 0x1000)] 0x1004 0x80))
    (fun s => s.x 0 == 0xAAAAAAAA && s.pc == 0x00100004) = true := by decide
theorem test_a1Post : nextWith (step (prog .a32 0xE05320D1 [(3, 0x2000)] 0x2000 0x7F))
    (fun s => s.x 2 == 0x7F && s.x 3 == 0x1FFF) = true := by decide
theorem test_a1Post_wrap : nextWith (step (prog .a32 0xE0D32FDF [(3, 0xFFFFFF80)] 0xFFFFFF80 0xFE))
    (fun s => s.x 2 == 0xFFFFFFFE && s.x 3 == 0x7F) = true := by decide
theorem test_a1Pre : nextWith (step (prog .a32 0xE1F542D3 [(5, 0x3000)] 0x3023 0xFF))
    (fun s => s.x 4 == 0xFFFFFFFF && s.x 5 == 0x3023) = true := by decide
theorem test_a1Pre_wrap : nextWith (step (prog .a32 0xE17540D1 [(5, 0)] 0xFFFFFFFF 0x01))
    (fun s => s.x 4 == 1 && s.x 5 == 0xFFFFFFFF) = true := by decide
theorem test_t1 : nextWith (step (prog .t32 0xF9932FFF [(3, 0xFFFFFF00)] 0xEFF 0xFF))
    (fun s => s.x 2 == 0xFFFFFFFF && s.x 3 == 0xFFFFFF00) = true := by decide
/-- In an IT block, condition EQ, last of the block: `it` becomes `0x00`, whether or not it passes. -/
theorem test_t1_it :
    nextWith (step { prog .t32 0xF9910004 [(0, 0xAAAAAAAA), (1, 0x1000)] 0x1004 0x80 with it := 0x08 })
    (fun s => s.x 0 == 0xAAAAAAAA && s.it == 0) = true ∧
    nextWith (step { prog .t32 0xF9910004 [(1, 0x1000)] 0x1004 0x80 with
      it := 0x08, flags := ⟨false, true, false, false⟩ })
    (fun s => s.x 0 == 0xFFFFFF80 && s.it == 0) = true := by decide
theorem test_t2Off : nextWith (step (prog .t32 0xF9110CFF [(1, 0x10)] 0xFFFFFF11 0x80))
    (fun s => s.x 0 == 0xFFFFFF80 && s.x 1 == 0x10) = true := by decide
theorem test_t2Off_same : nextWith (step (prog .t32 0xF9111C04 [(1, 0x1004)] 0x1000 0x7F))
    (fun s => s.x 1 == 0x7F) = true := by decide
theorem test_t2Post : nextWith (step (prog .t32 0xF9110904 [(1, 0x1000)] 0x1000 0xFF))
    (fun s => s.x 0 == 0xFFFFFFFF && s.x 1 == 0xFFC) = true := by decide
/-- `it = 0x1C` (NE) with `Z == 1`: no write-back, `it` becomes `0x18`. -/
theorem test_t2Post_it : nextWith (step { prog .t32 0xF9110B04 [(0, 0xAAAAAAAA), (1, 0x1000)] 0x1000 0x80 with
      it := 0x1C, flags := ⟨false, true, false, false⟩ })
    (fun s => s.x 0 == 0xAAAAAAAA && s.x 1 == 0x1000 && s.it == 0x18) = true := by decide
theorem test_t2Pre : nextWith (step (prog .t32 0xF9110D04 [(1, 0x1004)] 0x1000 0x80))
    (fun s => s.x 0 == 0xFFFFFF80 && s.x 1 == 0x1000) = true := by decide
theorem test_t2Pre_wrap : nextWith (step (prog .t32 0xF9110FFF [(1, 0xFFFFFF01)] 0 0x01))
    (fun s => s.x 0 == 1 && s.x 1 == 0) = true := by decide
/-- The exception is taken: recorded, with `pc` where it stood; the step after it stops. -/
theorem test_undefined : nextWith (step (prog .t32 0xF9110A04 [(1, 0x1000)] 0 0))
    (fun s => s.fault == some (.undefinedInstruction 0xF9110A04) && s.pc == 0x00100000 &&
      faultIs (step s) (.undefinedInstruction 0xF9110A04)) = true := by decide
theorem test_dataAbort :
    nextWith (step { prog .a32 0xE1D100D0 [(0, 0xAAAAAAAA), (1, 0x5000)] 0 0 with
      params := { State.reset.params with memAdmit := [⟨0, 0x4FFF, .dataRead⟩, ⟨0, 0xFFFFFFFF, .fetch⟩] } })
    (fun s => s.fault == some (.dataAbort 0x5000) && s.x 0 == 0xAAAAAAAA && s.pc == 0x00100000) =
    true := by decide
theorem test_unpredictable : faultIs (step (prog .a32 0xE1D1F0D0 [(1, 0x1000)] 0 0))
      (.unpredictable .a1Rt15) = true ∧
    faultIs (step (prog .t32 0xF911FB04 [(1, 0x1000)] 0 0)) (.unpredictable .t2Rt15W) = true := by
  decide
/-- `LDRSB r1, [r1], #1` under each value of `CU_WBACK_N_EQ_T`; the UNKNOWN value itself is not tested. -/
theorem test_constrained :
    faultIs (step { prog .a32 0xE0D110D1 [(1, 0x1000)] 0x1000 0x01 with
      params := { State.reset.params with cuWback := .specFault } }) (.unpredictable .wbackNEqT) = true ∧
    nextWith (step { prog .a32 0xE0D110D1 [(1, 0x1000)] 0x1000 0x01 with
      params := { State.reset.params with cuWback := .fixed .nop } })
      (fun s => s.x 1 == 0x1000 && s.pc == 0x00100004 && s.fault == none) = true ∧
    nextWith (step { prog .a32 0xE0D110D1 [(1, 0x1000)] 0x1000 0x01 with
      params := { State.reset.params with cuWback := .fixed .undef } })
      (fun s => s.x 1 == 0x1000 && s.fault == some (.undefinedInstruction 0xE0D110D1)) = true ∧
    nextWith (step (prog .a32 0xE0D110D1 [(1, 0x1000)] 0x1000 0x01))
      (fun s => s.pc == 0x00100004 && s.fault == none && s.draws == 1 && s.x 0 == 0) = true := by
  decide
/-- The same with the read not admitted: the Data Abort writes no register (R128, D26); where the launch lets
it corrupt the base, a value is drawn for the base (R108). -/
theorem test_constrained_abort :
    nextWith (step { prog .a32 0xE0D110D1 [(1, 0x1000)] 0x1000 0x01 with
      params := { State.reset.params with memAdmit := [⟨0, 0xFFFFFFFF, .fetch⟩] } })
      (fun s => s.fault == some (.dataAbort 0x1000) && s.x 1 == 0x1000 && s.draws == 0 &&
        s.pc == 0x00100000) = true ∧
    nextWith (step { prog .a32 0xE0D110D1 [(1, 0x1000)] 0x1000 0x01 with
      params := { State.reset.params with
        memAdmit := [⟨0, 0xFFFFFFFF, .fetch⟩], abortCorruptsBase := true } })
      (fun s => s.fault == some (.dataAbort 0x1000) && s.draws == 1 && s.pc == 0x00100000) = true := by
  decide
theorem test_see : refusedIs (step (prog .a32 0xE0F100D4 [] 0 0)) .seeLdrsbt = true ∧
    refusedIs (step (prog .t32 0xF9110E04 [] 0 0)) .seeLdrsbt = true ∧
    refusedIs (step (prog .t32 0xF99FF004 [] 0 0)) .seePli = true ∧
    refusedIs (step (prog .t32 0xF911FC04 [] 0 0)) .seePli = true ∧
    refusedIs (step (prog .a32 0xE1DF00D4 [] 0 0)) .seeLdrsbLiteral = true ∧
    refusedIs (step (prog .t32 0xF99F0004 [] 0 0)) .seeLdrsbLiteral = true ∧
    refusedIs (step (prog .t32 0xF91F0804 [] 0 0)) .seeLdrsbLiteral = true ∧
    refusedIs (step (prog .t32 0xE1D100D4 [] 0 0)) .notLdrsbImmediate = true := by decide

/-! ### Flags and `ITSTATE` -/

/-- `LDRSBGT` with `Z = 0`, `N = V = 1`; `LDRSBLT` with `N = 1`, `V = 0` (spec/95_test_vectors.md 3.1). -/
theorem test_conditions : condHolds .gt ⟨true, false, false, true⟩ = true ∧
    condHolds .lt ⟨true, false, false, false⟩ = true ∧
    condHolds .hi ⟨false, true, true, false⟩ = false ∧
    condHolds .ls ⟨false, false, true, false⟩ = false := by decide
theorem test_it : itCond 0x1C = some .ne ∧ itAdvance 0x1C = 0x18 ∧ itAdvance 0x18 = 0 ∧
    itCond 0x10 = none ∧ itCond 0xF8 = none ∧ itCond 0 = some .al := by decide

/-! ### Memory and the host's interface -/

theorem test_memory_canonical : Memory.write [(5, 1)] 5 0 = [] ∧
    Memory.write [(5, 1)] 3 2 = [(3, 2), (5, 1)] ∧ Memory.write [] 0xFFFFFFFF 0 = [] := by decide
theorem test_reset_memory : State.reset.mem.wf := by decide
/-- The first step after reset runs a placed word of either instruction set. -/
theorem test_withFetchWord :
    nextWith (step (State.reset.withFetchWord 32 0xE1D100D4)) (fun s => s.pc == 4) = true ∧
    nextWith (step (State.reset.withFetchWord 32 0xF9932FFF))
      (fun s => s.pc == 4 && s.iset == .t32) = true := by decide
/-- With nothing placed, the zeros at address 0 are no `LDRSB` (log entry 18). -/
theorem test_step_reset : refusedIs (step State.reset) .notLdrsbImmediate = true := by decide

/-! ### Witnesses: for every obligation with hypotheses, a state and operands that meet them together

The obligations `SampleWordsDecode`, `ItstateConditionAndAdvance` (whose clauses are met by the values of
`test_it`), `MemReadIsTheAdmittedByte`'s two clauses and `ResetMeetsTheInvariant` range over everything or
nothing; the others are named `witness_<obligation>`. -/

/-- Nothing admitted for a data read above `0x4FFF`, all of it for fetch. -/
def lowReads : Config.Params :=
  { State.reset.params with memAdmit := [⟨0, 0x4FFF, .dataRead⟩, ⟨0, 0xFFFFFFFF, .fetch⟩] }

/-- `LDRSB r0, [r1, #4]` in A32, and `LDRSB r0, [r1], #4` in T32, ready to run. -/
def readyA32 : State := prog .a32 0xE1D100D4 [(1, 0x1000)] 0x1004 0x80
def readyT32 : State := prog .t32 0xF9110B04 [(1, 0x1000)] 0x1000 0x80

/-- `LDRSB r1, [r1], #1` in A32: `wback && n == t`. -/
def sameA32 : State := prog .a32 0xE0D110D1 [(1, 0x1000)] 0x1000 0x01

theorem ready_of {s : State} (h : s.fault = none ∧ pcAligned s.iset s.pc = true ∧
    itLegal s.iset s.it = true ∧ s.params.haltPc ≠ some s.pc ∧ pcWraps s.pc = false ∧
    fetchAdmitted s.params s.pc = true) : FetchReady s :=
  ⟨⟨h.1, h.2.1, h.2.2.1⟩, h.2.2.2⟩

theorem readyA32_ready : FetchReady readyA32 := ready_of (by decide)
theorem readyT32_ready : FetchReady readyT32 := ready_of (by decide)
/-- The lowest and the highest aligned `pc` at which a fetch is made. -/
theorem lowest_ready : FetchReady State.reset := ready_of (by decide)
theorem highest_ready : FetchReady { State.reset with pc := 0xFFFFFFF8 } := ready_of (by decide)

theorem witness_DecodeOfEncode : (Instr.ldrsbA1Off .al true 14 15 255).wellFormed = true ∧
    (Instr.ldrsbT1 0 14 4095).wellFormed = true ∧ (Instr.seePliT1 15 0).wellFormed = true := by decide
theorem witness_EncodeOfDecode : decode .a32 0xE1D100D4 = .instr (.ldrsbA1Off .al true 1 0 4) ∧
    decode .t32 0xF91FFFFF = .instr (.seeLiteralT2 true true true 15 255) := by decide
theorem witness_ClassesDoNotOverlap : decode .a32 0xE1D100D4 = .instr (.ldrsbA1Off .al true 1 0 4) ∧
    decode .t32 0xF9910004 = .instr (.ldrsbT1 1 0 4) ∧
    decode .t32 0xF9110C04 = .instr (.ldrsbT2Off 1 0 4) ∧
    (Instr.ldrsbT1 1 0 4).wellFormed = true := by decide
theorem witness_PUWSelectTheEncoding :
    (isA1 0xE1DE00D4 = true ∧ Cond.bits .al = (0xE1DE00D4#32).extractLsb' 28 4 ∧
      (0xE1DE00D4#32).extractLsb' 16 4 ≠ 15#4) ∧
    (isA1 0xF1D100D4 = true ∧ (0xF1D100D4#32).extractLsb' 28 4 = 15#4) ∧
    (isT2 0xF91EFC04 = true ∧ (0xF91EFC04#32).extractLsb' 16 4 ≠ 15#4) := by decide
theorem witness_EveryInstructionHasItsLine : (Instr.ldrsbT2Pre false 13 14 255).predictable = true := by
  decide
theorem witness_SyntaxPicksTheEncoding : some Qualifier.wide ≠ some .narrow ∧ (14#4 ≠ 15#4) ∧
    (0#4 ≠ 15#4) ∧ 255 ≤ 255 ∧ 4095 ≤ 4095 ∧ 255 < 256 ∧ (14#4 ≠ 0#4) := by decide
theorem witness_ConditionTable : Cond.ofBits 14 = some .al ∧ Cond.ofBits 0 = some .eq := by decide
theorem witness_IllegalItstateIsRefused :
    (∀ s ∈ [{ State.reset with it := 0x01 }, { State.reset with iset := .t32, pc := 2, it := 0x10 },
        { State.reset with iset := .t32, pc := 2, it := 0xF8 }],
      s.fault = none ∧ s.params.haltPc ≠ some s.pc ∧ pcAligned s.iset s.pc = true ∧
      (s.iset = .a32 ∧ s.it ≠ 0 ∨ s.iset = .t32 ∧ itCond s.it = none)) := by decide
/-- The base is also the destination, and the address wraps. -/
theorem witness_LdrsbA1OffLoads : gp? 14 = some 14 ∧
    admits State.reset.params
      (State.x (State.reset.setX 14 0xFFFFFFFF) 14 + (255#8).setWidth 32) .dataRead = true ∧
    condHolds .al State.reset.flags = true := by decide
theorem witness_LdrsbA1PostLoadsAndWritesBack : gp? 1 = some 1 ∧ gp? 0 = some 0 ∧
    ((1 : RegNum) ≠ 0) ∧ condHolds .ne readyA32.flags = true ∧
    admits readyA32.params (readyA32.x 1) .dataRead = true := by decide
theorem witness_LdrsbA1PreLoadsAndWritesBack : gp? 14 = some 14 ∧ gp? 0 = some 0 ∧
    ((14 : RegNum) ≠ 0) ∧ condHolds .al readyA32.flags = true ∧
    admits readyA32.params (readyA32.x 14 - (1#8).setWidth 32) .dataRead = true := by decide
theorem witness_LdrsbT1Loads : gp? 14 = some 14 ∧ gp? 0 = some 0 ∧
    itCond readyT32.it = some .al ∧ condHolds .al readyT32.flags = true ∧
    admits readyT32.params (readyT32.x 1 + (4095#12).setWidth 32) .dataRead = true := by decide
theorem witness_LdrsbT2OffLoads : gp? 0 = some 0 ∧ itCond 0x18 = some .ne ∧
    condHolds .ne readyT32.flags = true ∧
    admits readyT32.params (readyT32.x 0 - (255#8).setWidth 32) .dataRead = true := by decide
theorem witness_LdrsbT2PostLoadsAndWritesBack : gp? 1 = some 1 ∧ gp? 0 = some 0 ∧
    ((1 : RegNum) ≠ 0) ∧ itCond readyT32.it = some .al ∧ condHolds .al readyT32.flags = true ∧
    admits readyT32.params (readyT32.x 1) .dataRead = true := by decide
theorem witness_LdrsbT2PreLoadsAndWritesBack : gp? 1 = some 1 ∧ gp? 0 = some 0 ∧
    ((1 : RegNum) ≠ 0) ∧ itCond readyT32.it = some .al ∧ condHolds .al readyT32.flags = true ∧
    admits readyT32.params (readyT32.x 1 + (255#8).setWidth 32) .dataRead = true := by decide

/-- Adding, subtracting, and a zero immediate. -/
theorem witness_AddressArithmeticWraps :
    operandsOf (.ldrsbT1 1 0 4095) = some (operandsT1 1 0 4095) ∧ (operandsT1 1 0 4095).add = true ∧
    operandsOf (.ldrsbT2Off 1 0 0) = some (operandsT2 true false false 1 0 0) ∧
    (operandsT2 true false false 1 0 0).add = false ∧
    (operandsT2 true false false 1 0 0).imm32 = 0 := by decide

/-- An `LDRSB` with write-back that is defined, and the one of `readyA32` without. -/
theorem defined_post : Operands.defined (operandsT2 false true true 1 0 4) := fun h =>
  absurd h.2 (by decide)
theorem defined_off : Operands.defined (operandsA1 true true false 1 0 4) := fun h =>
  absurd h.1 (by decide)
theorem not_defined : ¬ Operands.defined (operandsA1 false true false 1 1 1) := fun h =>
  h ⟨rfl, rfl⟩

/-- `LDRSB r0, [r1], #4` completes. -/
theorem readyT32_completes : exec (.ldrsbT2Post true 1 0 4) readyT32 =
    .next (readyT32.loaded (operandsT2 false true true 1 0 4)) :=
  exec_loaded (c := .al) (by decide) defined_post (by decide) (by decide) (by decide)
theorem readyA32_completes : exec (.ldrsbA1Off .al true 1 0 4) readyA32 =
    .next (readyA32.loaded (operandsA1 true true false 1 0 4)) :=
  exec_loaded (c := .al) (by decide) defined_off (by decide) (by decide) (by decide)

theorem witness_LoadedByteIsSignExtended :
    operandsOf (.ldrsbA1Off .al true 1 0 4) = some (operandsA1 true true false 1 0 4) ∧
    condOf readyA32 (.ldrsbA1Off .al true 1 0 4) = some .al ∧
    condHolds .al readyA32.flags = true ∧
    (∃ s', exec (.ldrsbA1Off .al true 1 0 4) readyA32 = .next s') ∧
    admits readyA32.params ((operandsA1 true true false 1 0 4).address
      (readyA32.x (operandsA1 true true false 1 0 4).n)) .dataRead = true :=
  ⟨by decide, by decide, by decide, ⟨_, readyA32_completes⟩, by decide⟩
/-- With write-back; with write-back and a zero immediate; without. -/
theorem witness_WriteBackGivesTheBaseOffsetAddr :
    operandsOf (.ldrsbT2Post true 1 0 4) = some (operandsT2 false true true 1 0 4) ∧
    condOf readyT32 (.ldrsbT2Post true 1 0 4) = some .al ∧ condHolds .al readyT32.flags = true ∧
    admits readyT32.params ((operandsT2 false true true 1 0 4).address (readyT32.x 1)) .dataRead =
      true ∧
    (∃ s', exec (.ldrsbT2Post true 1 0 4) readyT32 = .next s') ∧
    (∃ s', exec (.ldrsbT2Post true 1 0 0) readyT32 = .next s') ∧
    (operandsT2 false true true 1 0 0).imm32 = 0 ∧
    (∃ s', exec (.ldrsbA1Off .al true 1 0 4) readyA32 = .next s') ∧
    (operandsA1 true true false 1 0 4).wback = false :=
  ⟨by decide, by decide, by decide, by decide, ⟨_, readyT32_completes⟩,
    ⟨_, exec_loaded (d := operandsT2 false true true 1 0 0) (c := .al) (by decide)
      (fun h => absurd h.2 (by decide)) (by decide) (by decide) (by decide)⟩,
    by decide, ⟨_, readyA32_completes⟩, by decide⟩
/-- One instruction of each class. -/
theorem witness_DecodeOutputsComeFromTheFields :
    (operandsOf (.ldrsbA1Post .al false 14 0 0xFF) = some (operandsA1 false false false 14 0 0xFF)) ∧
    (operandsOf (.ldrsbT1 14 0 0xFFF) = some (operandsT1 14 0 0xFFF) ∧
      isT1 (encode (.ldrsbT1 14 0 0xFFF)) = true) ∧
    (operandsOf (.ldrsbT2Pre false 0 14 0) = some (operandsT2 true false true 0 14 0) ∧
      isT2 (encode (.ldrsbT2Pre false 0 14 0)) = true) := by decide
theorem witness_SharedOperation :
    operandsOf (.ldrsbT2Post true 1 0 4) = some (operandsT2 false true true 1 0 4) ∧
    Operands.defined (operandsT2 false true true 1 0 4) ∧
    condOf readyT32 (.ldrsbT2Post true 1 0 4) = some .al :=
  ⟨by decide, defined_post, by decide⟩
theorem witness_FailedConditionOnlyAdvances :
    operandsOf (.ldrsbA1Off .eq true 1 0 4) = some (operandsA1 true true false 1 0 4) ∧
    condOf readyA32 (.ldrsbA1Off .eq true 1 0 4) = some .eq ∧
    condHolds .eq readyA32.flags = false := by decide
theorem witness_DecodeOutcomesIgnoreTheCondition : State.reset.params.undefIgnoresCond = true ∧
    refusedIs (exec (.seePliT1 1 4) readyT32) .seePli = true ∧
    faultIs (exec (.ldrsbA1Off .eq true 1 15 4) readyA32) (.unpredictable .a1Rt15) = true ∧
    nextWith (exec (.undefinedT2 true 1 0 4) readyT32) (fun _ => true) = true := by decide
theorem witness_UnadmittedReadTakesDataAbort :
    let s := { State.reset.setX 1 0x5001 with params := lowReads }
    operandsOf (.ldrsbA1Off .al false 1 0 1) = some (operandsA1 true false false 1 0 1) ∧
    Operands.defined (operandsA1 true false false 1 0 1) ∧
    condOf s (.ldrsbA1Off .al false 1 0 1) = some .al ∧ condHolds .al s.flags = true ∧
    admits s.params ((operandsA1 true false false 1 0 1).address (s.x 1)) .dataRead = false :=
  ⟨by decide, fun h => absurd h.1 (by decide), by decide, by decide, by decide⟩
theorem witness_AbortedLoadIsRepeatable :
    (Instr.ldrsbA1Off .al true 1 0 4).predictable = true ∧
    exec (.ldrsbA1Off .al true 1 0 4) { readyA32 with params := { lowReads with memAdmit := [] } } =
      .next { readyA32 with
        params := { lowReads with memAdmit := [] }, fault := some (.dataAbort 0x1004) } ∧
    admits State.reset.params 0x1004 .dataRead = true := by
  refine ⟨by decide, ?_, by decide⟩
  rw [exec_eq_loadSignedByte (d := operandsA1 true true false 1 0 4) _ (by decide)]
  exact (loadSignedByte_passed (c := .al) defined_off rfl).trans (transfer_abort (by decide))
theorem witness_A1Rt15IsUnpredictable : (14#4 ≠ 15#4) ∧
    State.reset.params.undefIgnoresCond = true ∧ condHolds .al State.reset.flags = true := by decide
theorem witness_T2WbackRt15IsUnpredictable : (0#4 ≠ 15#4) ∧ itCond readyT32.it = some .al ∧
    condHolds .al readyT32.flags = true := by decide
/-- The five clauses: each value of the parameter, with the condition passed and failed. -/
theorem witness_WbackToTheDestinationIsConstrained :
    operandsOf (.ldrsbA1Post .al true 1 1 1) = some (operandsA1 false true false 1 1 1) ∧
    operandsOf (.ldrsbA1Post .eq true 1 1 1) = some (operandsA1 false true false 1 1 1) ∧
    ¬ Operands.defined (operandsA1 false true false 1 1 1) ∧
    condOf sameA32 (.ldrsbA1Post .al true 1 1 1) = some .al ∧
    sameA32.params.undefIgnoresCond = true ∧
    sameA32.params.cuWback = .fixed .loadBaseUnknown ∧
    sameA32.params.abortCorruptsBase = false ∧
    condHolds .al sameA32.flags = true ∧ condHolds .eq sameA32.flags = false :=
  ⟨by decide, by decide, not_defined, by decide, by decide, by decide, by decide, by decide,
    by decide⟩
theorem witness_DrawnOutcomeIsPermitted :
    let s := { sameA32 with params := { State.reset.params with cuWback := .drawn } }
    operandsOf (.ldrsbA1Post .al true 1 1 1) = some (operandsA1 false true false 1 1 1) ∧
    ¬ Operands.defined (operandsA1 false true false 1 1 1) ∧
    condOf s (.ldrsbA1Post .al true 1 1 1) = some .al ∧
    condHolds .al s.flags = true ∧ s.params.cuWback = .drawn ∧
    admits s.params ((operandsA1 false true false 1 1 1).address (s.x 1)) .dataRead = true :=
  ⟨by decide, not_defined, by decide, by decide, by decide, by decide⟩
theorem witness_UndefinedPatternRaises : FetchReady (prog .t32 0xF911F8FF [] 0 0) ∧
    itCond (prog .t32 0xF911F8FF [] 0 0).it = some .al ∧
    isT2 (fetchWord (prog .t32 0xF911F8FF [] 0 0)) = true ∧
    (fetchWord (prog .t32 0xF911F8FF [] 0 0)).getLsbD 10 = false ∧
    (fetchWord (prog .t32 0xF911F8FF [] 0 0)).getLsbD 8 = false ∧
    (fetchWord (prog .t32 0xF911F8FF [] 0 0)).extractLsb' 16 4 ≠ 15#4 :=
  ⟨ready_of (by decide), by decide, by decide, by decide, by decide, by decide⟩
theorem witness_FailedConditionHidesUndefined :
    let s := { readyT32 with
      it := 0x08, params := { State.reset.params with undefIgnoresCond := false } }
    s.params.undefIgnoresCond = false ∧ condHolds .eq s.flags = false ∧ itCond s.it = some .eq ∧
    (14#4 ≠ 15#4) ∧
    operandsOf (.ldrsbA1Post .eq true 1 1 1) = some (operandsA1 false true false 1 1 1) ∧
    ¬ Operands.defined (operandsA1 false true false 1 1 1) ∧
    condOf s (.ldrsbA1Post .eq true 1 1 1) = some .eq :=
  ⟨by decide, by decide, by decide, by decide, by decide, not_defined, by decide⟩

/-- The three classes; the last word meets the T2 clause with `Rt == '1111'` outside the `PLI` pattern. -/
theorem witness_LiteralWordsAreRefused :
    (FetchReady (prog .a32 0xE1DF00D4 [] 0 0) ∧
      isA1 (fetchWord (prog .a32 0xE1DF00D4 [] 0 0)) = true) ∧
    (FetchReady (prog .t32 0xF99FE004 [] 0 0) ∧
      isT1 (fetchWord (prog .t32 0xF99FE004 [] 0 0)) = true) ∧
    (FetchReady (prog .t32 0xF91FF804 [] 0 0) ∧
      isT2 (fetchWord (prog .t32 0xF91FF804 [] 0 0)) = true ∧
      (fetchWord (prog .t32 0xF91FF804 [] 0 0)).extractLsb' 8 3 ≠ 0b100#3) :=
  ⟨⟨ready_of (by decide), by decide⟩, ⟨ready_of (by decide), by decide⟩,
    ⟨ready_of (by decide), by decide, by decide⟩⟩
theorem witness_PliWordsAreRefused :
    (FetchReady (prog .t32 0xF99FF004 [] 0 0) ∧
      isT1 (fetchWord (prog .t32 0xF99FF004 [] 0 0)) = true ∧
      (fetchWord (prog .t32 0xF99FF004 [] 0 0)).extractLsb' 12 4 = 15#4) ∧
    (FetchReady (prog .t32 0xF911FC04 [] 0 0) ∧
      isT2 (fetchWord (prog .t32 0xF911FC04 [] 0 0)) = true ∧
      (fetchWord (prog .t32 0xF911FC04 [] 0 0)).extractLsb' 8 3 = 0b100#3) ∧
    readyA32.iset = .a32 :=
  ⟨⟨ready_of (by decide), by decide, by decide⟩, ⟨ready_of (by decide), by decide, by decide⟩,
    by decide⟩
theorem witness_LdrsbtWordsAreRefused :
    (FetchReady (prog .a32 0xE0F100D4 [] 0 0) ∧
      isA1 (fetchWord (prog .a32 0xE0F100D4 [] 0 0)) = true ∧
      (fetchWord (prog .a32 0xE0F100D4 [] 0 0)).getLsbD 24 = false ∧
      (fetchWord (prog .a32 0xE0F100D4 [] 0 0)).getLsbD 21 = true) ∧
    (FetchReady (prog .t32 0xF911FE04 [] 0 0) ∧
      isT2 (fetchWord (prog .t32 0xF911FE04 [] 0 0)) = true ∧
      (fetchWord (prog .t32 0xF911FE04 [] 0 0)).extractLsb' 8 3 = 0b110#3) ∧
    isT1 (fetchWord (prog .t32 0xF991F004 [] 0 0)) = true :=
  ⟨⟨ready_of (by decide), by decide, by decide, by decide⟩,
    ⟨ready_of (by decide), by decide, by decide⟩, by decide⟩

theorem witness_OffsetFormsFrame : ∃ s', exec (.ldrsbA1Off .al true 1 0 4) readyA32 = .next s' :=
  ⟨_, readyA32_completes⟩
theorem witness_WriteBackFormsFrame : ∃ s', exec (.ldrsbT2Post true 1 0 4) readyT32 = .next s' :=
  ⟨_, readyT32_completes⟩
theorem witness_UndefinedFrame : ∃ s', exec (.undefinedT2 true 1 0 4) readyT32 = .next s' := ⟨_, rfl⟩
/-- Without and with an exception. -/
theorem witness_PcAdvancesByFour :
    (readyA32.fault = none ∧ ∃ s', exec (.ldrsbA1Off .al true 1 0 4) readyA32 = .next s') ∧
    (readyT32.fault = none ∧ ∃ s', exec (.undefinedT2 true 1 0 4) readyT32 = .next s' ∧
      s'.fault ≠ none) :=
  ⟨⟨by decide, _, readyA32_completes⟩, by decide, _, rfl, by decide⟩
/-- A next state, a fault and a refusal. -/
theorem witness_FlagsAreReadOnlyThroughTheCondition :
    (∀ c, condOf readyA32 (.ldrsbA1Off .al true 1 0 4) = some c →
      condHolds c ⟨true, true, true, true⟩ = condHolds c readyA32.flags) ∧
    (∃ s', exec (.ldrsbA1Off .al true 1 0 4) readyA32 = .next s') ∧
    faultIs (exec (.ldrsbA1Off .al true 1 15 4) readyA32) (.unpredictable .a1Rt15) = true ∧
    refusedIs (exec (.seePliT1 1 4) readyT32) .seePli = true :=
  ⟨fun c h => by cases h; rfl, ⟨_, readyA32_completes⟩, by decide, by decide⟩
theorem witness_DitHasNoEffect : nextWith (step readyA32) (fun _ => true) = true ∧
    faultIs (step (prog .a32 0xE1D1F0D0 [] 0 0)) (.unpredictable .a1Rt15) = true ∧
    refusedIs (step State.reset) .notLdrsbImmediate = true := by decide
/-- Another register file, with the same base. -/
theorem witness_OnlyTheBaseIsRead :
    operandsOf (.ldrsbA1Off .al true 1 0 4) = some (operandsA1 true true false 1 0 4) ∧
    State.x { readyA32 with regs := (Vector.replicate 15 0xFFFFFFFF#32).set 1 0x1000 } 1 =
      readyA32.x 1 ∧
    (∃ s', exec (.ldrsbA1Off .al true 1 0 4) readyA32 = .next s') :=
  ⟨by decide, by decide, _, readyA32_completes⟩
/-- Another memory, with the same byte at the address. -/
theorem witness_OnlyTheAddressedByteIsRead :
    operandsOf (.ldrsbA1Off .al true 1 0 4) = some (operandsA1 true true false 1 0 4) ∧
    condOf readyA32 (.ldrsbA1Off .al true 1 0 4) = some .al ∧
    Memory.read [(0x1004, 0x80)] 0x1004 = readyA32.mem.read 0x1004 ∧
    (∃ s', exec (.ldrsbA1Off .al true 1 0 4) readyA32 = .next s') :=
  ⟨by decide, by decide, by decide, _, readyA32_completes⟩
/-- A word that decodes, and one that does not. -/
theorem witness_StepRunsTheDecodedInstruction :
    (FetchReady readyA32 ∧
      decode readyA32.iset (fetchWord readyA32) = .instr (.ldrsbA1Off .al true 1 0 4)) ∧
    (FetchReady State.reset ∧
      decode State.reset.iset (fetchWord State.reset) = .notLdrsbImmediate) :=
  ⟨⟨readyA32_ready, by decide⟩, lowest_ready, by decide⟩
theorem witness_FetchLayout : readyA32.iset = .a32 ∧ readyT32.iset = .t32 := by decide
/-- The boundary values: off by one, and the first `pc` at which the step faults in each set. -/
theorem witness_PcAlignmentAndWrap :
    (∀ s ∈ [{ State.reset with pc := 0xFFFFFFFE }, { State.reset with iset := .t32, pc := 0xFFFFFFFF },
        { State.reset with pc := 0xFFFFFFFC }, { State.reset with iset := .t32, pc := 0xFFFFFFFE }],
      s.fault = none ∧ s.params.haltPc ≠ some s.pc ∧
      (s.iset = .a32 ∧ s.pc.toNat % 4 ≠ 0 ∨ s.iset = .t32 ∧ s.pc.toNat % 2 ≠ 0 ∨
        s.pc.toNat % (if s.iset = .a32 then 4 else 2) = 0 ∧ itLegal s.iset s.it = true ∧
          0xFFFFFFFC ≤ s.pc.toNat)) := by decide
/-- Only the last of the four bytes is not admitted. -/
theorem witness_UnadmittedFetchFaults :
    LaunchLegal { State.reset with params := { lowReads with memAdmit := [⟨0, 2, .fetch⟩] } } ∧
    lowReads.haltPc ≠ some State.reset.pc ∧ State.reset.pc.toNat < 0xFFFFFFFC ∧
    (∀ w ∈ [(⟨0, 2, .fetch⟩ : Config.Window)], w.kind = .fetch →
      ¬ (w.first.toNat ≤ State.reset.pc.toNat + 3 ∧ State.reset.pc.toNat + 3 ≤ w.last.toNat)) :=
  ⟨⟨by decide, by decide, by decide⟩, by decide, by decide, by decide⟩
theorem witness_RunEndsAtHaltPc : Final { State.reset with params := { lowReads with haltPc := some 0 } } :=
  ⟨by decide, by decide⟩
/-- A form with defined operands; `LDRSB r1, [r1], #1` whose read aborts; a state with a recorded fault. -/
theorem witness_RaisingSetsOnlyTheFault :
    (∀ d, operandsOf (.undefinedT2 true 1 0 4) = some d → d.defined) ∧ readyT32.fault = none ∧
    (∃ s', exec (.undefinedT2 true 1 0 4) readyT32 = .next s' ∧ s'.fault ≠ none) ∧
    (lowReads.abortCorruptsBase = false ∧ sameA32.fault = none ∧
      nextWith (exec (.ldrsbA1Post .al true 1 1 1) { sameA32 with
        params := { lowReads with memAdmit := [] } }) (fun s => s.fault == some (.dataAbort 0x1000)) =
        true) ∧
    ({ readyT32 with fault := some .pcWrap } : State).fault = some .pcWrap :=
  ⟨fun _ h => (nomatch h), by decide, ⟨_, rfl, by decide⟩, by decide, by decide⟩
theorem witness_OutcomesAreTheClosedList : readyA32.fault = none ∧
    faultIs (step { State.reset with pc := 0xFFFFFFFC }) .pcWrap = true ∧
    nextWith (step (prog .t32 0xF9110A04 [] 0 0)) (fun s => s.fault != none) = true := by decide
/-- Both ends of a window, and the address after it. -/
theorem witness_MemReadIsTheAdmittedByte :
    memRead { State.reset with params := lowReads } 0 = some 0 ∧
    memRead { State.reset with params := lowReads } 0x4FFF = some 0 ∧
    memRead { State.reset with params := lowReads } 0x5000 = none := by decide
theorem witness_InstructionSetNeverChanges :
    nextWith (step readyA32) (fun s => s.iset == .a32) = true ∧
    nextWith (step readyT32) (fun s => s.iset == .t32) = true := by decide
/-- The largest word of the table's width that decodes, at the highest `pc`. -/
theorem witness_PlacedWordRunsNext : State.reset.mem.wf ∧ 0xF99FEFFF < 2 ^ 32 ∧
    decodeTableWord 32 0xF99FEFFF = some (.seeLiteralT1 14 4095) := by decide
/-- The invariant and a step from it. -/
theorem witness_EveryStepKeepsTheInvariant : Inv readyA32 ∧
    nextWith (step readyA32) (fun _ => true) = true :=
  ⟨⟨by decide, by decide, by decide, fun _ h => (nomatch h)⟩, by decide⟩

/-- A program of two instructions, `LDRSB r0, [r1, #4]` and `LDRSB r0, [r1]`, ended by `HALT_PC`. -/
def twoInstr : State :=
  { readyA32 with
    mem := readyA32.mem.writeWord .a32 0x00100004 0xE1D100D0
    params := { State.reset.params with haltPc := some 0x00100008 } }

theorem witness_CompletedRunIsStraightLine : ∃ t, CompletesIn 2 twoInstr t := by
  refine ⟨((twoInstr.setX 0 0xFFFFFF80).past.setX 0 0).past, rfl, rfl, rfl⟩
theorem witness_RunKeepsTheLaunchMemory : ∃ t, Sys2Proof.core.run 2 twoInstr = .next t := by
  obtain ⟨t, h, -⟩ := witness_CompletedRunIsStraightLine
  exact ⟨t, h⟩

end Sys2Proof.Tests
end

section
/-! PROOFS, 00_scope: under `UNDEF_IGNORES_COND` FALSE a failed condition hides an UNDEFINED or
UNPREDICTABLE word (R7, D16). -/
namespace Sys2Proof.Machine

/-! ### The instructions that `unlessHidden` can hide, each over its shared operation -/

section arms
variable (c : Cond) (u : Bool) (rn rt : BitVec 4) (imm8 : BitVec 8) (s : State)

theorem exec_undefinedT2 : exec (.undefinedT2 u rn rt imm8) s =
    undefinedInstruction (encode (.undefinedT2 u rn rt imm8)) (itCond s.it) s := rfl

theorem exec_ldrsbA1Off : exec (.ldrsbA1Off c u rn rt imm8) s =
    runA1 (encode (.ldrsbA1Off c u rn rt imm8)) c true u false rn rt imm8 s := rfl

theorem exec_ldrsbA1Post : exec (.ldrsbA1Post c u rn rt imm8) s =
    runA1 (encode (.ldrsbA1Post c u rn rt imm8)) c false u false rn rt imm8 s := rfl

theorem exec_ldrsbA1Pre : exec (.ldrsbA1Pre c u rn rt imm8) s =
    runA1 (encode (.ldrsbA1Pre c u rn rt imm8)) c true u true rn rt imm8 s := rfl

theorem exec_ldrsbT2Post : exec (.ldrsbT2Post u rn rt imm8) s =
    runT2Wback (encode (.ldrsbT2Post u rn rt imm8)) false u rn rt imm8 s := rfl

theorem exec_ldrsbT2Pre : exec (.ldrsbT2Pre u rn rt imm8) s =
    runT2Wback (encode (.ldrsbT2Pre u rn rt imm8)) true u rn rt imm8 s := rfl

end arms

/-! ### `Rt == 15` in the forms where it is UNPREDICTABLE (R104, R106) -/

/-- `gp?_15` at the numeral as the obligations spell it. -/
@[simp] theorem gp?_ofNat_15 : gp? 15 = none := gp?_15

theorem runA1_rt15 {rn : BitVec 4} (h : rn ≠ 15#4) (word : Word) (c : Cond) (p u w : Bool)
    (imm8 : BitVec 8) (s : State) :
    runA1 word c p u w rn 15 imm8 s = unpredictable .a1Rt15 (some c) s := by
  obtain ⟨n, hn⟩ := gp?_of_ne h
  simp only [runA1, hn, gp?_ofNat_15]

theorem runT2Wback_rt15 {rn : BitVec 4} (h : rn ≠ 15#4) (word : Word) (p u : Bool)
    (imm8 : BitVec 8) (s : State) :
    runT2Wback word p u rn 15 imm8 s = unpredictable .t2Rt15W (itCond s.it) s := by
  obtain ⟨n, hn⟩ := gp?_of_ne h
  simp only [runT2Wback, hn, gp?_ofNat_15]

/-! ### The hidden operations: each is `unlessHidden` under its condition -/

section hidden
variable {c : Cond} {s : State} (hu : s.params.undefIgnoresCond = false)
  (hc : condHolds c s.flags = false)
include hu hc

theorem unlessHidden_failed (act : Host.Outcome State Fault Refusal) :
    unlessHidden s (condHolds c s.flags) act = .next s.past := by
  rw [hc, unlessHidden_hidden hu, State.advance_eq_past]

theorem unpredictable_hidden (r : UnpredictableReason) :
    unpredictable r (some c) s = .next s.past :=
  unlessHidden_failed hu hc _

theorem undefinedInstruction_hidden (w : Word) :
    undefinedInstruction w (some c) s = .next s.past :=
  unlessHidden_failed hu hc _

theorem constrained_hidden (w : Word) (d : Operands) :
    constrained w (condHolds c s.flags) d s = .next s.past :=
  unlessHidden_failed hu hc _

theorem runA1_rt15_hidden {rn : BitVec 4} (h : rn ≠ 15#4) (word : Word) (p u w : Bool)
    (imm8 : BitVec 8) : runA1 word c p u w rn 15 imm8 s = .next s.past := by
  rw [runA1_rt15 h, unpredictable_hidden hu hc]

theorem runT2Wback_rt15_hidden {rn : BitVec 4} (h : rn ≠ 15#4) (hi : itCond s.it = some c)
    (word : Word) (p u : Bool) (imm8 : BitVec 8) :
    runT2Wback word p u rn 15 imm8 s = .next s.past := by
  rw [runT2Wback_rt15 h, hi, unpredictable_hidden hu hc]

end hidden

/-- Settles O32, by the three operations that `unlessHidden` guards: UNDEFINED, `t == 15` of the A1 and
the T2 write-back forms, and `wback && n == t` of any encoding. -/
theorem failedConditionHidesUndefined : Obligations.FailedConditionHidesUndefined := by
  intro c s hu hc
  refine ⟨fun u rn rt imm8 hi => ?undefined, fun u rn imm8 h => ⟨?_, ?_, ?_⟩,
    fun u rn imm8 h hi => ⟨?_, ?_⟩, fun i d ho hd hi => ?constrained⟩
  case undefined =>
    rw [exec_undefinedT2, hi, undefinedInstruction_hidden hu hc]
  case constrained =>
    rw [exec_constrained ho hd hi, constrained_hidden hu hc]
  · rw [exec_ldrsbA1Off, runA1_rt15_hidden hu hc h]
  · rw [exec_ldrsbA1Post, runA1_rt15_hidden hu hc h]
  · rw [exec_ldrsbA1Pre, runA1_rt15_hidden hu hc h]
  · rw [exec_ldrsbT2Post, runT2Wback_rt15_hidden hu hc h hi]
  · rw [exec_ldrsbT2Pre, runT2Wback_rt15_hidden hu hc h hi]

end Sys2Proof.Machine
end

section
/-! PROOFS, 10_state: conditions, `ITSTATE` and the checks on `pc` (R26, R27, R29, R33). -/
namespace Sys2Proof.Machine

/-! ### `ITSTATE` in arithmetic (R33) -/

theorem extractLsb'_zero_iff {n k : Nat} {v : BitVec n} :
    v.extractLsb' 0 k = 0#k ↔ v.toNat % 2 ^ k = 0 := by
  simp [← BitVec.toNat_inj, BitVec.extractLsb'_toNat]

/-- Inside a block the condition is `it[7:4]`. -/
theorem itCond_inBlock {it : BitVec 8} (h : it.toNat % 16 ≠ 0) :
    itCond it = Cond.ofBits (BitVec.ofNat 4 (it.toNat / 16)) := by
  have hf : it.extractLsb' 4 4 = BitVec.ofNat 4 (it.toNat / 16) := by
    simp [← BitVec.toNat_inj, BitVec.extractLsb'_toNat, Nat.shiftRight_eq_div_pow]
  rw [itCond, if_pos (mt extractLsb'_zero_iff.1 h), hf]

/-- `it[3:0] == 0` with `it != 0` is a value no block gives. -/
theorem itCond_illegal {it : BitVec 8} (h : it.toNat % 16 = 0) (h0 : it.toNat ≠ 0) :
    itCond it = none := by
  rw [itCond, if_neg (not_not.2 (extractLsb'_zero_iff.2 h)),
    if_neg fun he => h0 (congrArg BitVec.toNat he)]

theorem itCond_zero : itCond 0 = some .al := rfl

/-- The end of a block. -/
theorem itAdvance_last {it : BitVec 8} (h : it.toNat % 8 = 0) : itAdvance it = 0 :=
  if_pos (extractLsb'_zero_iff.2 h)

theorem itAdvance_toNat {it : BitVec 8} (h : it.toNat % 8 ≠ 0) :
    (itAdvance it).toNat = it.toNat / 32 * 32 + it.toNat % 16 * 2 := by
  rw [itAdvance, if_neg (mt extractLsb'_zero_iff.1 h)]
  have hlow : (it.extractLsb' 0 5 <<< 1).toNat = it.toNat % 16 * 2 := by
    simp only [BitVec.toNat_shiftLeft, BitVec.extractLsb'_toNat, Nat.shiftRight_zero,
      Nat.shiftLeft_eq]
    omega
  have hhigh : (it.extractLsb' 5 3).toNat = it.toNat / 32 := by
    simp only [BitVec.extractLsb'_toNat, Nat.shiftRight_eq_div_pow]
    omega
  rw [BitVec.toNat_append, ← Nat.shiftLeft_add_eq_or_of_lt (BitVec.isLt _), hlow, hhigh,
    Nat.shiftLeft_eq]

/-- Settles O10, one lemma per clause. -/
theorem itstateConditionAndAdvance : Obligations.ItstateConditionAndAdvance := by
  refine fun it => ⟨itCond_inBlock, fun h => ?_, itCond_illegal, itAdvance_last, itAdvance_toNat⟩
  rw [BitVec.eq_of_toNat_eq (y := 0) h, itCond_zero]

/-! ### The condition table (R29) -/

theorem condOfBits_eq_none {b : BitVec 4} : Cond.ofBits b = none ↔ b = 15#4 := by
  revert b; decide

/-- Settles O9: a value that names a condition is the one the table gives it, so each row is one case of
`Cond`. -/
theorem conditionTable : Obligations.ConditionTable := by
  refine ⟨fun b c f h => ?_, fun b => condOfBits_eq_none⟩
  obtain rfl := Cond.bits_of_ofBits h
  cases c <;> simp [Cond.bits, condHolds]

/-! ### The checks a step makes before it fetches, in the order of R116 -/

section checks
variable {s : State} (hf : s.fault = none) (hh : s.params.haltPc ≠ some s.pc)
include hf hh

theorem step_misalignedPc (ha : pcAligned s.iset s.pc = false) :
    step s = .refused .misalignedPc := by
  simp only [step, fetchInstr, hf, hh, ha, if_true, if_false]

theorem step_illegalItstate (ha : pcAligned s.iset s.pc = true)
    (hi : itLegal s.iset s.it = false) : step s = .refused .illegalItstate := by
  simp only [step, fetchInstr, hf, hh, ha, hi, Bool.true_eq_false, if_true, if_false]

theorem step_pcWrap (ha : pcAligned s.iset s.pc = true) (hi : itLegal s.iset s.it = true)
    (hw : pcWraps s.pc = true) : step s = .fault .pcWrap := by
  simp only [step, fetchInstr, hf, hh, ha, hi, hw, Bool.true_eq_false, if_true, if_false]

end checks

theorem itLegal_eq_false {k : ISet} {it : BitVec 8} :
    itLegal k it = false ↔ k = .a32 ∧ it ≠ 0 ∨ k = .t32 ∧ itCond it = none := by
  cases k <;> simp [itLegal]

/-- Settles O11: the values named are those that are not legal for `iset`. -/
theorem illegalItstateIsRefused : Obligations.IllegalItstateIsRefused :=
  fun _ hf hh ha hi => step_illegalItstate hf hh ha (itLegal_eq_false.2 hi)

theorem pcAligned_eq_false {k : ISet} {pc : Word} :
    pcAligned k pc = false ↔ pc.toNat % (if k = .a32 then 4 else 2) ≠ 0 := by
  rw [← Bool.not_eq_true, pcAligned_iff]

/-- Settles O46: alignment and the top of memory in arithmetic, at the two checks. -/
theorem pcAlignmentAndWrap : Obligations.PcAlignmentAndWrap := by
  refine fun s hf hh => ⟨fun hs h => ?a32, fun hs h => ?t32, fun ha hi hw => ?wrap⟩
  case a32 => exact step_misalignedPc hf hh (pcAligned_eq_false.2 (by rwa [if_pos hs]))
  case t32 => exact step_misalignedPc hf hh (pcAligned_eq_false.2 (by rwa [if_neg (by simp [hs])]))
  case wrap => exact step_pcWrap hf hh (pcAligned_iff.2 ha) hi (pcWraps_iff.2 hw)

/-- Settles O39: an instruction that goes on advanced, or recorded an exception where it stood. -/
theorem pcAdvancesByFour : Obligations.PcAdvancesByFour := by
  intro i s s' hs h
  obtain ⟨-, -, -, -, -, -, ⟨hpc, -, hf⟩ | ⟨hpc, -, f, -, hf⟩⟩ := (exec_effect i s).keeps h
  · exact ⟨fun _ => by rw [hpc, BitVec.toNat_add]; rfl, fun hn => absurd (hf.trans hs) hn⟩
  · exact ⟨fun hn => by simp [hf] at hn, fun _ => hpc⟩

end Sys2Proof.Machine
end

section
/-! PROOFS, 10_state: the instruction set (R32, R60) and the invariant of every step (R27, R33, R124). -/
namespace Sys2Proof.Machine

/-- Settles O52, by the decoder for the instruction fetched and by the frame for the next state. -/
theorem instructionSetNeverChanges : Obligations.InstructionSetNeverChanges := by
  refine ⟨fun s i h => iset_of_decode (fetchInstr_eq_next h).2, fun s s' h => ?_⟩
  obtain ⟨i, -, -, he⟩ := step_eq_next h
  obtain ⟨-, -, hset, -⟩ := (exec_effect i s).keeps he
  exact hset

/-! ### A block ends within four advances -/

/-- Each advance doubles the power of two, up to 16, that divides `it`: a block's mask runs out. -/
theorem dvd_itAdvance {n : Nat} {it : BitVec 8} (hn : n ∣ 16) (h : n ∣ it.toNat) :
    n * 2 ∣ (itAdvance it).toNat := by
  by_cases h8 : it.toNat % 8 = 0
  · rw [itAdvance_last h8]
    exact dvd_zero _
  · rw [itAdvance_toNat h8]
    have hhigh : n * 2 ∣ it.toNat / 32 * 32 := Dvd.dvd.mul_left (Nat.mul_dvd_mul_right hn 2) _
    have hlow : n ∣ it.toNat % 16 := (Nat.dvd_mod_iff hn).2 h
    exact Nat.dvd_add hhigh (Nat.mul_dvd_mul_right hlow 2)

theorem itAdvance_four (it : BitVec 8) :
    itAdvance (itAdvance (itAdvance (itAdvance it))) = 0 := by
  have h2 : 2 ∣ (itAdvance it).toNat := dvd_itAdvance (n := 1) (by decide) (one_dvd _)
  have h4 : 4 ∣ (itAdvance (itAdvance it)).toNat := dvd_itAdvance (by decide) h2
  have h8 : 8 ∣ (itAdvance (itAdvance (itAdvance it))).toNat := dvd_itAdvance (by decide) h4
  exact itAdvance_last (Nat.mod_eq_zero_of_dvd h8)

/-- What is legal to the end of its block is so after an advance: four advances reach 0, which is legal
and stays 0. -/
theorem itStaysLegal_itAfter {k : ISet} {it : BitVec 8} (h : itStaysLegal k 4 it = true) :
    itStaysLegal k 4 (itAfter k it) = true := by
  cases k with
  | a32 => exact h
  | t32 =>
    simp only [itStaysLegal, itAfter, Bool.and_eq_true] at h ⊢
    obtain ⟨-, h1, h2, h3, h4⟩ := h
    refine ⟨h1, h2, h3, h4, ?_⟩
    rw [itAdvance_four]
    rfl

theorem pcAligned_add_four {k : ISet} {pc : Word} (h : pcAligned k pc = true) :
    pcAligned k (pc + 4) = true := by
  rw [pcAligned_iff] at h ⊢
  rw [BitVec.toNat_add, show (4 : Word).toNat = 4 from rfl]
  split_ifs at h ⊢ <;> omega

/-- Every instruction keeps the invariant: its next state is past it, or where it stood with an
exception. -/
theorem exec_inv {i : Instr} {s s' : State} (hs : Inv s) (h : exec i s = .next s') : Inv s' := by
  obtain ⟨hm, ha, hi, hf⟩ := hs
  obtain ⟨-, -, hset, -, hmem, -, hend⟩ := (exec_effect i s).keeps h
  unfold Inv
  rw [hmem, hset]
  rcases hend with ⟨hpc, hit, hfault⟩ | ⟨hpc, hit, f, he, hfault⟩
  · rw [hpc, hit, hfault]
    exact ⟨hm, pcAligned_add_four ha, itStaysLegal_itAfter hi, hf⟩
  · rw [hpc, hit, hfault]
    exact ⟨hm, ha, hi, fun _ hg => Option.some.inj hg ▸ he⟩

/-- Settles O55: a step that goes on runs one instruction. -/
theorem everyStepKeepsTheInvariant : Obligations.EveryStepKeepsTheInvariant := by
  intro s s' hs h
  obtain ⟨i, -, -, he⟩ := step_eq_next h
  exact exec_inv hs he

end Sys2Proof.Machine
end

section
/-! PROOFS, 10_state: what the forms of `LDRSB` leave unchanged (R22, R112). -/
namespace Sys2Proof.Machine

theorem itAfter_cases (k : ISet) (it : BitVec 8) :
    itAfter k it = it ∨ k = .t32 ∧ itAfter k it = itAdvance it := by
  cases k
  · exact .inl rfl
  · exact .inr ⟨rfl, rfl⟩

/-- The frame of every instruction: what no next state changes, and `it` as before or advanced. -/
theorem exec_frame {i : Instr} {s s' : State} (h : exec i s = .next s') :
    (∀ r, r ∉ writes i → s'.x r = s.x r) ∧ s'.flags = s.flags ∧ s'.iset = s.iset ∧
      s'.dit = s.dit ∧ s'.params = s.params ∧
      (s'.it = s.it ∨ s.iset = .t32 ∧ s'.it = itAdvance s.it) ∧
      ∀ a : Word, s'.mem.read a = s.mem.read a := by
  obtain ⟨hx, hflags, hset, hdit, hmem, hparams, hend⟩ := (exec_effect i s).keeps h
  have hit : s'.it = s.it ∨ s.iset = .t32 ∧ s'.it = itAdvance s.it := by
    rcases hend with ⟨-, hit, -⟩ | ⟨-, hit, -⟩
    · exact hit ▸ itAfter_cases s.iset s.it
    · exact .inl hit
  exact ⟨hx, hflags, hset, hdit, hparams, hit, fun a => by rw [hmem]⟩

/-! ### Which fault an instruction records, and when it draws -/

/-- `s'` has the count of draws of `s`, and its fault or a Data Abort. -/
def AbortsAtMost (s s' : State) : Prop :=
  s'.draws = s.draws ∧ (s'.fault = s.fault ∨ ∃ a, s'.fault = some (.dataAbort a))

theorem loadSignedByte_abortsAtMost {w : Word} {c : Option Cond} {d : Operands} {s s' : State}
    (hd : d.defined) (h : loadSignedByte w c d s = .next s') : AbortsAtMost s s' := by
  rcases loadSignedByte_next hd h with rfl | rfl | rfl
  · exact ⟨rfl, .inl rfl⟩
  · exact ⟨s.loaded_draws d, .inl (s.loaded_fault d)⟩
  · exact ⟨rfl, .inr ⟨_, rfl⟩⟩

theorem unpredictable_abortsAtMost {r : UnpredictableReason} {c : Option Cond} {s s' : State}
    (h : unpredictable r c s = .next s') : AbortsAtMost s s' := by
  rw [unpredictable_next h]
  exact ⟨rfl, .inl rfl⟩

/-- Only the UNDEFINED row and `wback && n == t` can draw, or record an undefined instruction. -/
theorem exec_abortsAtMost {i : Instr} {s s' : State}
    (hu : ∀ u rn rt imm8, i ≠ .undefinedT2 u rn rt imm8)
    (hd : ∀ d, operandsOf i = some d → d.defined) (h : exec i s = .next s') :
    AbortsAtMost s s' := by
  rcases exec_shape i with ⟨r, he, -⟩ | ⟨r, he⟩ | ⟨⟨u, rn, rt, imm8, hi⟩, -⟩ | ⟨d, ho, he⟩
  · exact nomatch (he s).symm.trans h
  · exact unpredictable_abortsAtMost ((he s).symm.trans h)
  · exact absurd hi (hu u rn rt imm8)
  · exact loadSignedByte_abortsAtMost (hd d ho) ((he s).symm.trans h)

/-! ### The fault of a load that writes back to its destination (R108) -/

/-- `s'` has the fault of `s`, a Data Abort, or an undefined instruction `w`. -/
def FaultsAtMost (w : Word) (s s' : State) : Prop :=
  s'.fault = s.fault ∨ (∃ a, s'.fault = some (.dataAbort a)) ∨
    s'.fault = some (.undefinedInstruction w)

theorem transferUnknown_faultsAtMost (w : Word) {d : Operands} {s s' : State}
    (h : transferUnknown d s = .next s') : FaultsAtMost w s s' := by
  cases ha : admits s.params (d.address (s.x d.n)) .dataRead
  · rw [transferUnknown_abort ha] at h
    cases h
    exact .inr (.inl ⟨_, rfl⟩)
  · rw [transferUnknown_admitted ha] at h
    cases h
    exact .inl rfl

theorem permitted_faultsAtMost {o : Config.CuOutcome} {w : Word} {b : Bool} {d : Operands}
    {s s' : State} (h : permitted o w b d s = .next s') : FaultsAtMost w s s' := by
  cases o with
  | undef =>
    cases h
    exact .inr (.inr rfl)
  | nop =>
    cases h
    exact .inl rfl
  | loadBaseUnknown =>
    cases b
    · cases h
      exact .inl rfl
    · exact transferUnknown_faultsAtMost w h

theorem constrained_faultsAtMost {w : Word} {b : Bool} {d : Operands} {s s' : State}
    (h : constrained w b d s = .next s') : FaultsAtMost w s s' := by
  unfold constrained unlessHidden at h
  split at h
  · split at h
    · exact nomatch h
    · exact permitted_faultsAtMost h
    · exact permitted_faultsAtMost (s := s.drawn) h
  · cases h
    exact .inl rfl

theorem exec_constrained_faultsAtMost {i : Instr} {d : Operands} {s s' : State}
    (ho : operandsOf i = some d) (hd : ¬ d.defined) (h : exec i s = .next s') :
    FaultsAtMost (encode i) s s' := by
  cases hc : condOf s i with
  | none =>
    rw [exec_eq_loadSignedByte s ho, hc] at h
    exact nomatch h
  | some c =>
    rw [exec_constrained ho hd hc] at h
    exact constrained_faultsAtMost h

/-! ### The operands of the two kinds of form -/

theorem defined_of_wback_false {d : Operands} (h : d.wback = false) : d.defined :=
  fun hd => absurd hd.1 (by simp [h])

theorem operandsFrom_wback_false {rn rt : BitVec 4} {f : RegNum → RegNum → Operands}
    (hf : ∀ n t, (f n t).wback = false) {d : Operands} (h : operandsFrom rn rt f = some d) :
    d.defined := by
  obtain ⟨n, t, -, -, rfl⟩ := operandsFrom_eq_some.1 h
  exact defined_of_wback_false (hf n t)

/-- Different register fields give defined operands. -/
theorem operandsFrom_defined {rn rt : BitVec 4} {f : RegNum → RegNum → Operands}
    (hf : ∀ n t, (f n t).n = n ∧ (f n t).t = t) (hne : rn ≠ rt) {d : Operands}
    (h : operandsFrom rn rt f = some d) : d.defined := by
  obtain ⟨n, t, hn, ht, rfl⟩ := operandsFrom_eq_some.1 h
  rintro ⟨-, he⟩
  rw [(hf n t).1, (hf n t).2] at he
  exact hne (gp?_inj hn (he ▸ ht))

/-- Settles O36: without write-back the operands are always defined. -/
theorem offsetFormsFrame : Obligations.OffsetFormsFrame := by
  intro i rt s s' hi h
  obtain ⟨hx, hflags, hset, hdit, hparams, hit, hmem⟩ := exec_frame h
  have hform : writes i = (gp? rt).toList ∧ (∀ u rn rt imm8, i ≠ .undefinedT2 u rn rt imm8) ∧
      ∀ d, operandsOf i = some d → d.defined := by
    rcases hi with ⟨cond, u, rn, imm8, rfl⟩ | ⟨rn, imm12, rfl⟩ | ⟨rn, imm8, rfl⟩ <;>
      exact ⟨rfl, fun _ _ _ _ => nofun, fun d => operandsFrom_wback_false fun _ _ => rfl⟩
  obtain ⟨hw, hu, hd⟩ := hform
  obtain ⟨hdraws, hfault⟩ := exec_abortsAtMost hu hd h
  exact ⟨fun r hr => hx r (by simpa [hw] using hr), hflags, hset, hdit, hparams, hdraws, hit,
    hfault, hmem⟩

/-- Settles O37: with `rn ≠ rt` the operands are defined; with `rn = rt` R108 lets the instruction be
UNDEFINED. -/
theorem writeBackFormsFrame : Obligations.WriteBackFormsFrame := by
  intro i rn rt s s' hi h
  obtain ⟨hx, hflags, hset, hdit, hparams, hit, hmem⟩ := exec_frame h
  have hform : writes i = (gp? rt).toList ++ (gp? rn).toList ∧
      (∀ u rn rt imm8, i ≠ .undefinedT2 u rn rt imm8) ∧
      ∀ d, rn ≠ rt → operandsOf i = some d → d.defined := by
    rcases hi with ⟨cond, u, imm8, rfl⟩ | ⟨cond, u, imm8, rfl⟩ | ⟨u, imm8, rfl⟩ | ⟨u, imm8, rfl⟩ <;>
      exact ⟨rfl, fun _ _ _ _ => nofun,
        fun d hne => operandsFrom_defined (fun _ _ => ⟨rfl, rfl⟩) hne⟩
  obtain ⟨hw, hu, hd⟩ := hform
  have hframe : ∀ r, gp? rt ≠ some r → gp? rn ≠ some r → s'.x r = s.x r :=
    fun r ht hn => hx r (by simpa [hw] using ⟨ht, hn⟩)
  refine ⟨hframe, hflags, hset, hdit, hparams,
    fun hne => (exec_abortsAtMost hu (fun d => hd d hne) h).1, hit, ?fault, hmem⟩
  by_cases hdef : ∀ d, operandsOf i = some d → d.defined
  · exact (exec_abortsAtMost hu hdef h).2.imp_right .inl
  · push Not at hdef
    obtain ⟨d, ho, hnd⟩ := hdef
    have hrr : rn = rt := not_not.1 fun hne => hnd (hd d hne ho)
    exact (exec_constrained_faultsAtMost ho hnd h).imp_right (.imp_right fun hf => ⟨hrr, hf⟩)

end Sys2Proof.Machine
end

section
/-! PROOFS, 10_state: `CPSR.DIT` has no effect (R30, R148), and an instruction reads no register but its
base (R22). -/
namespace Sys2Proof.Machine

/-! ### `dit` -/

/-- The state with another `dit`. -/
def State.withDit (b : Bool) (s : State) : State := { s with dit := b }

/-- No instruction looks at `dit`: the case of `exec_viewed` that leaves flags and memory alone. -/
theorem exec_withDit (i : Instr) (s : State) (b : Bool) :
    exec i (s.withDit b) = mapNext (State.withDit b) (exec i s) := by
  have hv : exec i (s.withDit b) = mapNext (State.viewed s.flags b s.mem) (exec i s) :=
    exec_viewed i (fun _ _ => rfl) fun _ _ _ _ _ => rfl
  rw [hv]
  cases h : exec i s with
  | fault g => rfl
  | refused r => rfl
  | next t =>
    obtain ⟨-, hflags, -, -, hmem, -⟩ := (exec_effect i s).keeps h
    simp only [mapNext, State.viewed, State.withDit, ← hflags, ← hmem]

/-- Nor does the fetch, so neither does a step. -/
theorem step_withDit (s : State) (b : Bool) :
    step (s.withDit b) = mapNext (State.withDit b) (step s) := by
  have hf : fetchInstr (s.withDit b) = fetchInstr s := rfl
  unfold step
  rw [hf]
  cases fetchInstr s with
  | next i => exact exec_withDit i s b
  | fault g => rfl
  | refused r => rfl

/-- Settles O41: a step commutes with a change of `dit`, and keeps it. -/
theorem ditHasNoEffect : Obligations.DitHasNoEffect := by
  intro s b
  have hstep : step { s with dit := b } = mapNext (State.withDit b) (step s) := step_withDit s b
  refine ⟨fun s' h => ?next, fun g h => ?fault, fun r h => ?refused⟩
  case next =>
    obtain ⟨i, -, -, he⟩ := step_eq_next h
    obtain ⟨-, -, -, hdit, -⟩ := (exec_effect i s).keeps he
    exact ⟨hdit, by rw [hstep, h]; rfl⟩
  case fault => rw [hstep, h]; rfl
  case refused => rw [hstep, h]; rfl

/-! ### Registers: two runs of one instruction from register files that agree at the base

The run from `s` and the run from `{ s with regs := regs }` are followed side by side. -/

/-- `t` and `t'` came from the two register files by the same writes: they differ in registers alone, and a
register that differs is unwritten in both. -/
def SameWrites (s : State) (regs : Vector Word 15) (t t' : State) : Prop :=
  t' = { t with regs := t'.regs } ∧
    ∀ r : RegNum, t'.x r = t.x r ∨ t.x r = s.x r ∧ t'.x r = regs[r.val]

/-- The two runs end the same way, a next state by the same writes. -/
def SameOutcome (s : State) (regs : Vector Word 15) (o o' : Host.Outcome State Fault Refusal) :
    Prop :=
  (∀ t, o = .next t → ∃ t', o' = .next t' ∧ SameWrites s regs t t') ∧
  (∀ g, o = .fault g → o' = .fault g) ∧
  (∀ r, o = .refused r → o' = .refused r)

section reads
variable {s t t' : State} {regs : Vector Word 15}

theorem SameWrites.start (s : State) (regs : Vector Word 15) :
    SameWrites s regs s { s with regs := regs } :=
  ⟨rfl, fun _ => .inr ⟨rfl, rfl⟩⟩

theorem SameWrites.setX (h : SameWrites s regs t t') (i : RegNum) (v : Word) :
    SameWrites s regs (t.setX i v) (t'.setX i v) := by
  obtain ⟨ht, hr⟩ := h
  refine ⟨by rw [ht]; rfl, fun r => ?_⟩
  by_cases hi : r = i
  · exact .inl (by simp only [hi, State.x_setX_self])
  · simpa only [State.x_setX_ne _ hi] using hr r

theorem SameWrites.drawn (h : SameWrites s regs t t') : SameWrites s regs t.drawn t'.drawn :=
  ⟨by rw [h.1]; rfl, h.2⟩

theorem SameWrites.advance (h : SameWrites s regs t t') : SameWrites s regs t.advance t'.advance :=
  ⟨by rw [h.1]; rfl, h.2⟩

theorem SameWrites.withFault (h : SameWrites s regs t t') (f : Option Fault) :
    SameWrites s regs { t with fault := f } { t' with fault := f } :=
  ⟨by rw [h.1], h.2⟩

theorem SameWrites.params_eq (h : SameWrites s regs t t') : t'.params = t.params := by rw [h.1]
theorem SameWrites.draws_eq (h : SameWrites s regs t t') : t'.draws = t.draws := by rw [h.1]
theorem SameWrites.memRead_eq (h : SameWrites s regs t t') (a : Word) :
    memRead t' a = memRead t a := by rw [h.1]; rfl

theorem SameOutcome.next (h : SameWrites s regs t t') :
    SameOutcome s regs (.next t) (.next t') := by
  refine ⟨?_, fun _ => nofun, fun _ => nofun⟩
  rintro _ ⟨⟩
  exact ⟨t', rfl, h⟩

theorem SameOutcome.fault (g : Fault) : SameOutcome s regs (.fault g) (.fault g) :=
  ⟨fun _ => nofun, fun _ => id, fun _ => nofun⟩

theorem SameOutcome.refused (r : Refusal) : SameOutcome s regs (.refused r) (.refused r) :=
  ⟨fun _ => nofun, fun _ => nofun, fun _ => id⟩

theorem SameOutcome.exception (h : SameWrites s regs t t') (f : Fault) :
    SameOutcome s regs (takeException f t) (takeException f t') :=
  .next (h.withFault _)

section base
variable {d : Operands} (h : SameWrites s regs t t') (hb : t'.x d.n = t.x d.n)
include h hb

theorem transfer_sameOutcome : SameOutcome s regs (transfer d t) (transfer d t') := by
  unfold transfer
  simp only [hb, h.memRead_eq]
  cases memRead t (d.address (t.x d.n)) with
  | none => exact .exception h _
  | some b =>
    refine .next (SameWrites.advance ?_)
    split
    · exact (h.setX _ _).setX _ _
    · exact h.setX _ _

theorem transferUnknown_sameOutcome :
    SameOutcome s regs (transferUnknown d t) (transferUnknown d t') := by
  have hu := (h.setX d.n (Config.unknownWord t.draws)).drawn
  unfold transferUnknown
  simp only [hb, h.memRead_eq, h.params_eq, h.draws_eq]
  cases memRead t (d.address (t.x d.n)) with
  | none =>
    refine .exception ?_ _
    split
    · exact hu
    · exact h
  | some b => exact .next hu.advance

theorem permitted_sameOutcome (o : Config.CuOutcome) (w : Word) (b : Bool) :
    SameOutcome s regs (permitted o w b d t) (permitted o w b d t') := by
  cases o with
  | undef => exact .exception h _
  | nop => exact .next h.advance
  | loadBaseUnknown =>
    cases b
    · exact .next h.advance
    · exact transferUnknown_sameOutcome h hb

theorem constrained_sameOutcome (w : Word) (b : Bool) :
    SameOutcome s regs (constrained w b d t) (constrained w b d t') := by
  unfold constrained unlessHidden
  rw [h.params_eq, h.draws_eq]
  split
  · split
    · exact .fault _
    · exact permitted_sameOutcome h hb _ w b
    · exact permitted_sameOutcome h.drawn hb _ w b
  · exact .next h.advance

theorem loadSignedByte_sameOutcome (w : Word) (c : Option Cond) :
    SameOutcome s regs (loadSignedByte w c d t) (loadSignedByte w c d t') := by
  cases c with
  | none => exact .refused _
  | some c =>
    have hflags : t'.flags = t.flags := by rw [h.1]
    simp only [loadSignedByte, withCond_some, hflags]
    split
    · exact constrained_sameOutcome h hb w _
    · split
      · exact transfer_sameOutcome h hb
      · exact .next h.advance

end base

end reads

/-- Settles O42: an `LDRSB` is the shared operation, followed from both register files. -/
theorem onlyTheBaseIsRead : Obligations.OnlyTheBaseIsRead := by
  intro i d s regs ho hb
  have hc : condOf { s with regs := regs } i = condOf s i := condOf_congr i rfl
  rw [exec_eq_loadSignedByte s ho, exec_eq_loadSignedByte _ ho, hc]
  obtain ⟨hnext, hfault, hrefused⟩ :=
    loadSignedByte_sameOutcome (SameWrites.start s regs) hb (encode i) (condOf s i)
  refine ⟨fun s' h => ?_, hfault, hrefused⟩
  obtain ⟨t', ht', heq, hr⟩ := hnext s' h
  exact ⟨t'.regs, heq ▸ ht', hr⟩

end Sys2Proof.Machine
end

section
/-! PROOFS, 20_memory: the byte an instruction reads (R42, R43, R47, R96, R121). -/
namespace Sys2Proof.Machine

/-- Settles O51: the read primitive asks `MEM_ADMIT`, whose windows are those of the statement. -/
theorem memReadIsTheAdmittedByte : Obligations.MemReadIsTheAdmittedByte :=
  fun _ _ => ⟨fun h => memRead_eq_some.2 ⟨admits_eq_true.2 h, rfl⟩,
    fun h => memRead_eq_none.2 (admits_eq_false.2 h)⟩

/-- A defined `LDRSB` whose condition passes, where the byte is not admitted. -/
theorem exec_abort {i : Instr} {d : Operands} {c : Cond} {s : State} (ho : operandsOf i = some d)
    (hd : d.defined) (hc : condOf s i = some c) (hp : condHolds c s.flags = true)
    (ha : admits s.params (d.address (s.x d.n)) .dataRead = false) :
    exec i s = .next { s with fault := some (.dataAbort (d.address (s.x d.n))) } := by
  rw [exec_eq_loadSignedByte s ho, hc, loadSignedByte_passed hd hp, transfer_abort ha]

/-- Settles O25: the address spelled out is the model's `d.address`. -/
theorem unadmittedReadTakesDataAbort : Obligations.UnadmittedReadTakesDataAbort :=
  fun _ _ _ _ ho hd hc hp ha => exec_abort ho hd hc hp ha

/-- The state with another memory. -/
def State.withMem (m : Memory) (s : State) : State := { s with mem := m }

/-- An instruction does the same with another memory that agrees at the byte it reads: the case of
`exec_viewed` that leaves flags and `dit` alone. -/
theorem exec_withMem (i : Instr) (s : State) (m : Memory)
    (hm : ∀ d k, operandsOf i = some d → condOf s i = some k → condHolds k s.flags = true →
      m.read (d.address (s.x d.n)) = s.mem.read (d.address (s.x d.n))) :
    exec i (s.withMem m) = mapNext (State.withMem m) (exec i s) := by
  have hv : exec i (s.withMem m) = mapNext (State.viewed s.flags s.dit m) (exec i s) :=
    exec_viewed i (fun _ _ => rfl) hm
  rw [hv]
  cases h : exec i s with
  | fault g => rfl
  | refused r => rfl
  | next t =>
    obtain ⟨-, hflags, -, hdit, -⟩ := (exec_effect i s).keeps h
    simp only [mapNext, State.viewed, State.withMem, ← hflags, ← hdit]

/-- Settles O43: an instruction commutes with such a change of memory. -/
theorem onlyTheAddressedByteIsRead : Obligations.OnlyTheAddressedByteIsRead := by
  intro i d c s m ho hc hm
  have hexec : exec i { s with mem := m } = mapNext (State.withMem m) (exec i s) := by
    refine exec_withMem i s m fun d' c' ho' hc' hp => ?_
    obtain rfl : d = d' := Option.some.inj (ho.symm.trans ho')
    obtain rfl : c = c' := Option.some.inj (hc.symm.trans hc')
    exact hm hp
  refine ⟨fun s' h => ?next, fun g h => ?fault, fun r h => ?refused⟩
  case next => rw [hexec, h]; rfl
  case fault => rw [hexec, h]; rfl
  case refused => rw [hexec, h]; rfl

end Sys2Proof.Machine
end

section
/-! PROOFS, 20_memory: the fetch (R56 to R58), and what a run leaves as the launch has it (R38, R51,
R54). -/
namespace Sys2Proof.Machine

/-! ### The layout of the word -/

/-- Concatenation in arithmetic. -/
theorem toNat_append_add {n k : Nat} (hi : BitVec n) (lo : BitVec k) :
    (hi ++ lo).toNat = hi.toNat * 2 ^ k + lo.toNat := by
  rw [BitVec.toNat_append, ← Nat.shiftLeft_add_eq_or_of_lt lo.isLt, Nat.shiftLeft_eq]

/-- Settles O45: each concatenation of `wordOfBytes` in arithmetic. -/
theorem fetchLayout : Obligations.FetchLayout := by
  refine fun s => ⟨fun hs => ?a32, fun hs => ?t32⟩
  case a32 =>
    simp only [fetchWord, hs, wordOfBytes, toNat_append_add]
    omega
  case t32 =>
    simp only [fetchWord, hs, wordOfBytes, toNat_append_add]
    omega

/-! ### A byte that is not admitted -/

/-- The four bytes of a fetch, counted from `pc`. -/
theorem fetchAdmitted_iff {p : Config.Params} {pc : Word} :
    fetchAdmitted p pc = true ↔ ∀ k < 4, admits p (pc + BitVec.ofNat 32 k) .fetch = true := by
  simp only [fetchAdmitted, Bool.and_eq_true]
  constructor
  · rintro ⟨⟨⟨h0, h1⟩, h2⟩, h3⟩ k hk
    interval_cases k
    · simpa using h0
    · exact h1
    · exact h2
    · exact h3
  · intro h
    exact ⟨⟨⟨by simpa using h 0 (by decide), h 1 (by decide)⟩, h 2 (by decide)⟩, h 3 (by decide)⟩

/-- The last check before the fetch, in the order of R116. -/
theorem step_fetchFault {s : State} (hs : LaunchLegal s) (hh : s.params.haltPc ≠ some s.pc)
    (hw : pcWraps s.pc = false) (hm : fetchAdmitted s.params s.pc = false) :
    step s = .fault (.fetchFault s.pc) := by
  obtain ⟨hf, ha, hi⟩ := hs
  simp only [step, fetchInstr, hf, hh, ha, hi, hw, hm, Bool.true_eq_false, Bool.false_eq_true,
    if_true, if_false]

/-- Settles O47: below the top of memory the address of byte `k` is `pc + k` without wrapping. -/
theorem unadmittedFetchFaults : Obligations.UnadmittedFetchFaults := by
  intro s k hs hh hlt hk hout
  have hpc : (s.pc + BitVec.ofNat 32 k).toNat = s.pc.toNat + k := by
    simp only [BitVec.toNat_add, BitVec.toNat_ofNat]
    omega
  have hbyte : admits s.params (s.pc + BitVec.ofNat 32 k) .fetch = false :=
    admits_eq_false.2 (by rwa [hpc])
  refine step_fetchFault hs hh ?below ?unadmitted
  case below => exact Bool.eq_false_iff.2 (mt pcWraps_iff.1 (by omega))
  case unadmitted =>
    exact Bool.eq_false_iff.2 fun h => absurd (fetchAdmitted_iff.1 h k hk) (by simp [hbyte])

/-! ### Runs -/

/-- What every step keeps, a run of any length keeps. -/
theorem run_keeps {P : State → Prop} (hstep : ∀ u v, P u → step u = .next v → P v) {k : Nat}
    {s t : State} (hs : P s) (h : Sys2Proof.core.run k s = .next t) : P t := by
  induction k generalizing s with
  | zero =>
    cases h
    exact hs
  | succ k ih =>
    obtain ⟨u, hu, hrun⟩ := run_succ_next h
    exact ih (hstep s u hs hu) hrun

/-- `t` has the memory, `iset`, flags, `dit` and launch parameters of `s`. -/
def SameLaunch (s t : State) : Prop :=
  t.mem = s.mem ∧ t.iset = s.iset ∧ t.flags = s.flags ∧ t.dit = s.dit ∧ t.params = s.params

theorem SameLaunch.refl (s : State) : SameLaunch s s := ⟨rfl, rfl, rfl, rfl, rfl⟩

theorem SameLaunch.trans {s t u : State} (h : SameLaunch s t) (h' : SameLaunch t u) :
    SameLaunch s u := by
  obtain ⟨hmem, hset, hflags, hdit, hparams⟩ := h
  obtain ⟨hmem', hset', hflags', hdit', hparams'⟩ := h'
  exact ⟨hmem'.trans hmem, hset'.trans hset, hflags'.trans hflags, hdit'.trans hdit,
    hparams'.trans hparams⟩

theorem step_sameLaunch {s s' : State} (h : step s = .next s') : SameLaunch s s' := by
  obtain ⟨i, -, -, he⟩ := step_eq_next h
  obtain ⟨-, hflags, hset, hdit, hmem, hparams, -⟩ := (exec_effect i s).keeps he
  exact ⟨hmem, hset, hflags, hdit, hparams⟩

/-- Settles O56, by the frame of one step. -/
theorem runKeepsTheLaunchMemory : Obligations.RunKeepsTheLaunchMemory := by
  intro k s s' h
  have hstep : ∀ u v, SameLaunch s u → step u = .next v → SameLaunch s v :=
    fun _ _ hu hv => hu.trans (step_sameLaunch hv)
  exact run_keeps hstep (.refl s) h

end Sys2Proof.Machine
end

section
/-! PROOFS, 30_encoding: the decoder and the encoder are inverse, the classes are
disjoint, and `P`, `U`, `W` pick the row (R60 to R66, R81, R82). -/
namespace Sys2Proof

/-! ### The Decode steps, an equation per row (R77 to R82) -/

section rows
variable {c : Cond} {p u w : Bool} {rn rt : BitVec 4} {imm8 : BitVec 8} {imm12 : BitVec 12}

theorem stepsA1_literal : stepsA1 c p u w 15#4 rt imm8 = .seeLiteralA1 c p u w rt imm8 := rfl

theorem stepsA1_ldrsbt (hn : rn ≠ 15#4) :
    stepsA1 c false u true rn rt imm8 = .seeLdrsbtA1 c u rn rt imm8 := if_neg hn

theorem stepsA1_off (hn : rn ≠ 15#4) :
    stepsA1 c true u false rn rt imm8 = .ldrsbA1Off c u rn rt imm8 := if_neg hn

theorem stepsA1_post (hn : rn ≠ 15#4) :
    stepsA1 c false u false rn rt imm8 = .ldrsbA1Post c u rn rt imm8 := if_neg hn

theorem stepsA1_pre (hn : rn ≠ 15#4) :
    stepsA1 c true u true rn rt imm8 = .ldrsbA1Pre c u rn rt imm8 := if_neg hn

theorem stepsT1_pli : stepsT1 rn 15#4 imm12 = .seePliT1 rn imm12 := rfl

theorem stepsT1_literal (ht : rt ≠ 15#4) : stepsT1 15#4 rt imm12 = .seeLiteralT1 rt imm12 :=
  if_neg ht

theorem stepsT1_load (hn : rn ≠ 15#4) (ht : rt ≠ 15#4) :
    stepsT1 rn rt imm12 = .ldrsbT1 rn rt imm12 :=
  (if_neg ht).trans (if_neg hn)

theorem stepsT2_pli : stepsT2 true false false rn 15#4 imm8 = .seePliT2 rn imm8 := rfl

/-- The row `T2_Rn15` is well formed exactly where the `PLI` test has not taken the word (R78). -/
theorem wellFormed_seeLiteralT2 : (Instr.seeLiteralT2 p u w rt imm8).wellFormed = true ↔
    ¬ (rt = 15#4 ∧ p = true ∧ u = false ∧ w = false) := by
  simp [Instr.wellFormed, or_assoc, imp_iff_not_or]

theorem stepsT2_literal (h : ¬ (rt = 15#4 ∧ p = true ∧ u = false ∧ w = false)) :
    stepsT2 p u w 15#4 rt imm8 = .seeLiteralT2 p u w rt imm8 := if_neg h

theorem stepsT2_ldrsbt (hn : rn ≠ 15#4) :
    stepsT2 true true false rn rt imm8 = .seeLdrsbtT2 rn rt imm8 :=
  (if_neg (by simp)).trans (if_neg hn)

theorem stepsT2_undefined (hn : rn ≠ 15#4) :
    stepsT2 false u false rn rt imm8 = .undefinedT2 u rn rt imm8 :=
  (if_neg (by simp)).trans (if_neg hn)

theorem stepsT2_off (hn : rn ≠ 15#4) (ht : rt ≠ 15#4) :
    stepsT2 true false false rn rt imm8 = .ldrsbT2Off rn rt imm8 :=
  (if_neg fun h => ht h.1).trans (if_neg hn)

theorem stepsT2_post (hn : rn ≠ 15#4) :
    stepsT2 false u true rn rt imm8 = .ldrsbT2Post u rn rt imm8 :=
  (if_neg (by simp)).trans (if_neg hn)

theorem stepsT2_pre (hn : rn ≠ 15#4) :
    stepsT2 true u true rn rt imm8 = .ldrsbT2Pre u rn rt imm8 :=
  (if_neg (by simp)).trans (if_neg hn)

end rows

/-- Settles O1: the word of a row is the word of its class, whose Decode steps give the row back. -/
theorem decodeOfEncode : Obligations.DecodeOfEncode := by
  intro i h
  cases i with
  | ldrsbA1Off | ldrsbA1Post | ldrsbA1Pre | seeLdrsbtA1 | seeLiteralA1 =>
    simp_all [Instr.wellFormed, Instr.iset, encode, decode_wordA1, stepsA1_off, stepsA1_post,
      stepsA1_pre, stepsA1_ldrsbt, stepsA1_literal]
  | ldrsbT1 | seePliT1 | seeLiteralT1 =>
    simp_all [Instr.wellFormed, Instr.iset, encode, decode_wordT1, stepsT1_load, stepsT1_pli,
      stepsT1_literal]
  | ldrsbT2Off | ldrsbT2Post | ldrsbT2Pre | undefinedT2 | seeLdrsbtT2 | seePliT2 =>
    simp_all [Instr.wellFormed, Instr.iset, encode, decode_wordT2, stepsT2_off, stepsT2_post,
      stepsT2_pre, stepsT2_undefined, stepsT2_ldrsbt, stepsT2_pli]
  | seeLiteralT2 =>
    rw [Instr.iset, encode, decode_wordT2, stepsT2_literal (wellFormed_seeLiteralT2.1 h)]

/-! ### What the Decode steps give is well formed and has the word of its class -/

theorem encode_stepsA1 (c : Cond) (p u w : Bool) (rn rt : BitVec 4) (imm8 : BitVec 8) :
    encode (stepsA1 c p u w rn rt imm8) = wordA1 c p u w rn rt imm8 := by
  unfold stepsA1
  split
  case isTrue hn => rw [hn, encode]
  case isFalse => split <;> rfl

theorem wellFormed_stepsA1 (c : Cond) (p u w : Bool) (rn rt : BitVec 4) (imm8 : BitVec 8) :
    (stepsA1 c p u w rn rt imm8).wellFormed = true := by
  unfold stepsA1
  split
  case isTrue => rfl
  case isFalse hn => split <;> exact bne_iff_ne.2 hn

theorem encode_stepsT1 (rn rt : BitVec 4) (imm12 : BitVec 12) :
    encode (stepsT1 rn rt imm12) = wordT1 rn rt imm12 := by
  unfold stepsT1
  split
  case isTrue ht => rw [ht, encode]
  case isFalse =>
    split
    case isTrue hn => rw [hn, encode]
    case isFalse => rfl

theorem wellFormed_stepsT1 (rn rt : BitVec 4) (imm12 : BitVec 12) :
    (stepsT1 rn rt imm12).wellFormed = true := by
  unfold stepsT1
  split
  case isTrue => rfl
  case isFalse ht =>
    split
    case isTrue => exact bne_iff_ne.2 ht
    case isFalse hn => simp [Instr.wellFormed, hn, ht]

theorem encode_stepsT2 (p u w : Bool) (rn rt : BitVec 4) (imm8 : BitVec 8) :
    encode (stepsT2 p u w rn rt imm8) = wordT2 p u w rn rt imm8 := by
  unfold stepsT2
  split
  case isTrue h =>
    obtain ⟨rfl, rfl, rfl, rfl⟩ := h
    rfl
  case isFalse =>
    split
    case isTrue hn => rw [hn, encode]
    case isFalse => cases p <;> cases u <;> cases w <;> rfl

theorem wellFormed_stepsT2 (p u w : Bool) (rn rt : BitVec 4) (imm8 : BitVec 8) :
    (stepsT2 p u w rn rt imm8).wellFormed = true := by
  unfold stepsT2
  split
  case isTrue => rfl
  case isFalse h =>
    split
    case isTrue => exact wellFormed_seeLiteralT2.2 h
    case isFalse hn => cases p <;> cases u <;> cases w <;> simp_all [Instr.wellFormed]

/-! ### What a word that decodes is -/

/-- A word that decodes in A32 is of class A1, and its Decode steps give the instruction. -/
theorem decode_a32_eq_instr {v : Word} {i : Instr} (h : decode .a32 v = .instr i) :
    ∃ c, isA1 v = true ∧ Cond.ofBits (field v 28 4) = some c ∧
      i = stepsA1 c (bit v 24) (bit v 23) (bit v 21) (field v 16 4) (field v 12 4)
        (field v 8 4 ++ field v 0 4) := by
  simp only [decode, decodeA32] at h
  split at h
  case isFalse => exact nomatch h
  case isTrue hA1 =>
    split at h
    case h_1 => exact nomatch h
    case h_2 c hc =>
      cases h
      exact ⟨c, hA1, hc, rfl⟩

/-- A word that decodes in T32 is of class T1 or T2, and the Decode steps of that class give the
instruction. -/
theorem decode_t32_eq_instr {v : Word} {i : Instr} (h : decode .t32 v = .instr i) :
    (isT1 v = true ∧ i = stepsT1 (field v 16 4) (field v 12 4) (field v 0 12)) ∨
    (isT2 v = true ∧ i = stepsT2 (bit v 10) (bit v 9) (bit v 8) (field v 16 4) (field v 12 4)
      (field v 0 8)) := by
  simp only [decode, decodeT32] at h
  split at h
  case isTrue hT1 =>
    cases h
    exact .inl ⟨hT1, rfl⟩
  case isFalse =>
    split at h
    case isFalse => exact nomatch h
    case isTrue hT2 =>
      cases h
      exact .inr ⟨hT2, rfl⟩

/-- Settles O2: in each class a word is the word of its fields, and the Decode steps keep the
fields. -/
theorem encodeOfDecode : Obligations.EncodeOfDecode := by
  intro s v i h
  suffices hi : encode i = v ∧ i.wellFormed = true from ⟨hi.1, iset_of_decode h, hi.2⟩
  cases s with
  | a32 =>
    obtain ⟨c, hA1, hc, rfl⟩ := decode_a32_eq_instr h
    exact ⟨(encode_stepsA1 ..).trans (wordA1_of_fields hA1 hc), wellFormed_stepsA1 ..⟩
  | t32 =>
    obtain ⟨hT1, rfl⟩ | ⟨hT2, rfl⟩ := decode_t32_eq_instr h
    · exact ⟨(encode_stepsT1 ..).trans (wordT1_of_fields hT1), wellFormed_stepsT1 ..⟩
    · exact ⟨(encode_stepsT2 ..).trans (wordT2_of_fields hT2), wellFormed_stepsT2 ..⟩

/-! ### The classes are disjoint (R63, R66) -/

theorem bit_23_of_isT1 {v : Word} (h : isT1 v = true) : v.getLsbD 23 = true := by
  have := congrArg (fun x : Word => x.getLsbD 23) (beq_iff_eq.1 h)
  simpa using this

theorem bit_23_of_isT2 {v : Word} (h : isT2 v = true) : v.getLsbD 23 = false := by
  have := congrArg (fun x : Word => x.getLsbD 23) (beq_iff_eq.1 h)
  simpa using this

theorem field_top_wordT1 (rn rt : BitVec 4) (imm12 : BitVec 12) :
    field (wordT1 rn rt imm12) 28 4 = 15#4 := by
  refine BitVec.eq_of_getElem_eq fun {i} hi => ?_
  simp only [field, wordT1, BitVec.getElem_extractLsb', BitVec.getLsbD_append]
  interval_cases i <;> simp

theorem field_top_wordT2 (p u w : Bool) (rn rt : BitVec 4) (imm8 : BitVec 8) :
    field (wordT2 p u w rn rt imm8) 28 4 = 15#4 := by
  refine BitVec.eq_of_getElem_eq fun {i} hi => ?_
  simp only [field, wordT2, BitVec.getElem_extractLsb', BitVec.getLsbD_append]
  interval_cases i <;> simp

theorem Cond.bits_ne_15 (c : Cond) : c.bits ≠ 15#4 := by cases c <;> decide

/-- Bits 31:28 of a word tell its instruction set: `cond` in A32, `1111` in T32 (R61 to R63). -/
theorem tableSet_encode (i : Instr) : tableSet (encode i) = i.iset := by
  cases i with
  | ldrsbA1Off | ldrsbA1Post | ldrsbA1Pre | seeLdrsbtA1 | seeLiteralA1 =>
    rw [encode, tableSet, field_cond_wordA1, if_neg (Cond.bits_ne_15 _), Instr.iset]
  | ldrsbT1 | seePliT1 | seeLiteralT1 =>
    rw [encode, tableSet, field_top_wordT1, if_pos rfl, Instr.iset]
  | ldrsbT2Off | ldrsbT2Post | ldrsbT2Pre | undefinedT2 | seeLdrsbtT2 | seePliT2 | seeLiteralT2 =>
    rw [encode, tableSet, field_top_wordT2, if_pos rfl, Instr.iset]

/-- Settles O3: the last clause because equal words are decoded in the same instruction set. -/
theorem classesDoNotOverlap : Obligations.ClassesDoNotOverlap := by
  refine ⟨fun w i h => ?a32, fun w i h => ?t32, fun i j hi hj he => ?injective⟩
  case a32 =>
    obtain ⟨c, hA1, -⟩ := decode_a32_eq_instr h
    exact hA1
  case t32 =>
    obtain ⟨hT1, -⟩ | ⟨hT2, -⟩ := decode_t32_eq_instr h
    · exact .inl ⟨hT1, bit_23_of_isT1 hT1⟩
    · exact .inr ⟨hT2, bit_23_of_isT2 hT2⟩
  case injective =>
    have hset : i.iset = j.iset := by rw [← tableSet_encode i, he, tableSet_encode]
    have hdec : Decoded.instr i = .instr j := by
      rw [← decodeOfEncode i hi, he, hset, decodeOfEncode j hj]
    exact Decoded.instr.inj hdec

/-! ### `P`, `U`, `W` (R82) -/

/-- Decoding a word of class A1, from its fields and the condition they name. -/
theorem decode_of_isA1_cond {v : Word} {c : Cond} (h : isA1 v = true) (hc : c.bits = field v 28 4) :
    decode .a32 v = .instr (stepsA1 c (bit v 24) (bit v 23) (bit v 21) (field v 16 4)
      (field v 12 4) (field v 8 4 ++ field v 0 4)) := by
  simp only [decode, decodeA32, h, if_true, ← hc, Cond.ofBits_bits]

/-- Settles O4: the rows of the map are the equations of the Decode steps. -/
theorem pUWSelectTheEncoding : Obligations.PUWSelectTheEncoding := by
  refine ⟨fun v c h hc hn => ?a1, fun v h hc => ?cond15, fun v h hn => ?t2⟩
  case a1 =>
    rw [decode_of_isA1_cond h hc]
    simp only [bit]
    cases v.getLsbD 24 <;> cases v.getLsbD 21
    · exact congrArg _ (stepsA1_post hn)
    · exact congrArg _ (stepsA1_ldrsbt hn)
    · exact congrArg _ (stepsA1_off hn)
    · exact congrArg _ (stepsA1_pre hn)
  case cond15 =>
    have hnone : Cond.ofBits (field v 28 4) = none := congrArg Cond.ofBits hc
    simp only [decode, decodeA32, h, if_true, hnone]
  case t2 =>
    rw [decode_of_isT2 h]
    simp only [bit]
    cases v.getLsbD 10 <;> cases v.getLsbD 9 <;> cases v.getLsbD 8
    · exact congrArg _ (stepsT2_undefined hn)
    · exact congrArg _ (stepsT2_post hn)
    · exact congrArg _ (stepsT2_undefined hn)
    · exact congrArg _ (stepsT2_post hn)
    · by_cases ht : v.extractLsb' 12 4 = 15#4
      · simp only [field, ht, if_true, stepsT2_pli]
      · simp only [field, ht, if_false]
        exact congrArg _ (stepsT2_off hn ht)
    · exact congrArg _ (stepsT2_pre hn)
    · exact congrArg _ (stepsT2_ldrsbt hn)
    · exact congrArg _ (stepsT2_pre hn)

end Sys2Proof
end

section
/-! PROOFS, 30_encoding: the decode outputs (R67 to R69, R91) and the assembler (R84 to
R88). -/
namespace Sys2Proof.Machine

/-! ### The decode outputs, read from the word -/

theorem zext32_toNat {m : Nat} {v : BitVec m} (h : m ≤ 32) : (zext32 v).toNat = v.toNat :=
  BitVec.toNat_setWidth_of_le h

theorem isT2_of_isT1 {v : Word} (h : isT1 v = true) : isT2 v = false :=
  Bool.eq_false_iff.2 fun h2 => Bool.noConfusion ((bit_23_of_isT1 h).symm.trans (bit_23_of_isT2 h2))

/-- `d` is what the rules of R91 read from the fields of a word of one of the three classes. -/
def OutputsOfWord (k : ISet) (v : Word) (d : Operands) : Prop :=
  d.t.val = (field v 12 4).toNat ∧ d.n.val = (field v 16 4).toNat ∧
  (k = .a32 → d.imm32.toNat = (field v 8 4).toNat * 16 + (field v 0 4).toNat ∧
    d.index = bit v 24 ∧ d.add = bit v 23 ∧ d.wback = (!bit v 24 || bit v 21)) ∧
  (k = .t32 → isT1 v = true → d.imm32.toNat = (field v 0 12).toNat ∧
    d.index = true ∧ d.add = true ∧ d.wback = false) ∧
  (k = .t32 → isT2 v = true → d.imm32.toNat = (field v 0 8).toNat ∧
    d.index = bit v 10 ∧ d.add = bit v 9 ∧ d.wback = bit v 8)

section outputs
variable {rn rt : BitVec 4} {n t : RegNum} (hn : gp? rn = some n) (ht : gp? rt = some t)
include hn ht

theorem outputsOfWord_wordA1 (c : Cond) (p u w : Bool) (imm8 : BitVec 8) :
    OutputsOfWord .a32 (wordA1 c p u w rn rt imm8) (operandsA1 p u w n t imm8) := by
  have himm := congrArg BitVec.toNat (field_imm8_wordA1 c p u w rn rt imm8)
  rw [toNat_append_add] at himm
  refine ⟨?_, ?_, fun _ => ⟨?_, ?_, ?_, ?_⟩, nofun, nofun⟩
  · rw [field_rt_wordA1, gp?_eq_some.1 ht, operandsA1]
  · rw [field_rn_wordA1, gp?_eq_some.1 hn, operandsA1]
  · exact (zext32_toNat (by decide)).trans himm.symm
  · rw [bit_p_wordA1, operandsA1]
  · rw [bit_u_wordA1, operandsA1]
  · rw [bit_p_wordA1, bit_w_wordA1, operandsA1]

theorem outputsOfWord_wordT1 (imm12 : BitVec 12) :
    OutputsOfWord .t32 (wordT1 rn rt imm12) (operandsT1 n t imm12) := by
  refine ⟨?_, ?_, nofun, fun _ _ => ⟨?_, rfl, rfl, rfl⟩, fun _ h => ?_⟩
  · rw [field_rt_wordT1, gp?_eq_some.1 ht, operandsT1]
  · rw [field_rn_wordT1, gp?_eq_some.1 hn, operandsT1]
  · rw [field_imm12_wordT1, operandsT1, zext32_toNat (by decide)]
  · simp [isT2_of_isT1 (isT1_wordT1 ..)] at h

theorem outputsOfWord_wordT2 (p u w : Bool) (imm8 : BitVec 8) :
    OutputsOfWord .t32 (wordT2 p u w rn rt imm8) (operandsT2 p u w n t imm8) := by
  refine ⟨?_, ?_, nofun, fun _ h => ?_, fun _ _ => ⟨?_, ?_, ?_, ?_⟩⟩
  · rw [field_rt_wordT2, gp?_eq_some.1 ht, operandsT2]
  · rw [field_rn_wordT2, gp?_eq_some.1 hn, operandsT2]
  · simp [isT1_wordT2] at h
  · rw [field_imm8_wordT2, operandsT2, zext32_toNat (by decide)]
  · rw [bit_p_wordT2, operandsT2]
  · rw [bit_u_wordT2, operandsT2]
  · rw [bit_w_wordT2, operandsT2]

end outputs

/-- Settles O6: each encoding is its class at fixed values of `P`, `U`, `W`. -/
theorem decodeOutputsComeFromTheFields : Obligations.DecodeOutputsComeFromTheFields := by
  intro i d h
  suffices hw : OutputsOfWord i.iset (encode i) d from hw
  cases i with
  | ldrsbA1Off | ldrsbA1Post | ldrsbA1Pre =>
    obtain ⟨n, t, hn, ht, rfl⟩ := operandsFrom_eq_some.1 h
    exact outputsOfWord_wordA1 hn ht ..
  | ldrsbT1 =>
    obtain ⟨n, t, hn, ht, rfl⟩ := operandsFrom_eq_some.1 h
    exact outputsOfWord_wordT1 hn ht ..
  | ldrsbT2Off | ldrsbT2Post | ldrsbT2Pre =>
    obtain ⟨n, t, hn, ht, rfl⟩ := operandsFrom_eq_some.1 h
    exact outputsOfWord_wordT2 hn ht ..
  | undefinedT2 | seeLdrsbtA1 | seeLdrsbtT2 | seePliT1 | seePliT2 | seeLiteralA1 | seeLiteralT1
  | seeLiteralT2 => exact nomatch h

/-! ### A line assembles to its candidate (R84, R145) -/

section assemble
variable {l : AsmLine} {i : Instr} (hq : l.q ≠ some .narrow)
include hq

theorem assemble_a32 (current : Cond) (hi : candidateA32 l = some i) (hp : i.predictable = true) :
    assemble .a32 current l = some i := by
  simp only [assemble, if_neg hq, hi, Option.filter_some, hp, if_true]

theorem assemble_t32 {current : Cond} (hc : l.cond = some current)
    (hi : candidateT32 l = some i) (hp : i.predictable = true) :
    assemble .t32 current l = some i := by
  simp only [assemble, if_neg hq, hc, Option.getD_some, if_true, hi, Option.filter_some, hp]

end assemble

/-- A line with no candidate does not assemble. -/
theorem assemble_t32_none {l : AsmLine} (current : Cond) (h : candidateT32 l = none) :
    assemble .t32 current l = none := by
  simp only [assemble, h, Option.filter_none, ite_self]

/-! ### The candidate of a line, by addressing form and immediate (R88) -/

section candidates
variable {c : Option Cond} {q : Option Qualifier} {rt rn : BitVec 4} {o : AsmOffset}

theorem candidateA32_offset (h : o.imm ≤ 255) :
    candidateA32 ⟨c, q, rt, rn, .offset (some o)⟩ =
      some (.ldrsbA1Off (c.getD .al) o.add rn rt (BitVec.ofNat 8 o.imm)) := if_pos h

theorem candidateA32_post (h : o.imm ≤ 255) :
    candidateA32 ⟨c, q, rt, rn, .postIndexed o⟩ =
      some (.ldrsbA1Post (c.getD .al) o.add rn rt (BitVec.ofNat 8 o.imm)) := if_pos h

theorem candidateA32_pre (h : o.imm ≤ 255) :
    candidateA32 ⟨c, q, rt, rn, .preIndexed o⟩ =
      some (.ldrsbA1Pre (c.getD .al) o.add rn rt (BitVec.ofNat 8 o.imm)) := if_pos h

theorem candidateT32_plus (ha : o.add = true) (h : o.imm ≤ 4095) :
    candidateT32 ⟨c, q, rt, rn, .offset (some o)⟩ =
      some (.ldrsbT1 rn rt (BitVec.ofNat 12 o.imm)) := (if_pos ha).trans (if_pos h)

theorem candidateT32_minus (ha : o.add = false) (h : o.imm ≤ 255) :
    candidateT32 ⟨c, q, rt, rn, .offset (some o)⟩ =
      some (.ldrsbT2Off rn rt (BitVec.ofNat 8 o.imm)) :=
  (if_neg (Bool.eq_false_iff.1 ha)).trans (if_pos h)

theorem candidateT32_minus_none (ha : o.add = false) (h : 255 < o.imm) :
    candidateT32 ⟨c, q, rt, rn, .offset (some o)⟩ = none :=
  (if_neg (Bool.eq_false_iff.1 ha)).trans (if_neg (by omega))

theorem candidateT32_post (h : o.imm ≤ 255) :
    candidateT32 ⟨c, q, rt, rn, .postIndexed o⟩ =
      some (.ldrsbT2Post o.add rn rt (BitVec.ofNat 8 o.imm)) := if_pos h

theorem candidateT32_pre (h : o.imm ≤ 255) :
    candidateT32 ⟨c, q, rt, rn, .preIndexed o⟩ =
      some (.ldrsbT2Pre o.add rn rt (BitVec.ofNat 8 o.imm)) := if_pos h

end candidates

/-! ### The line of an instruction -/

/-- The sign written for `U` reads back as `U` (R87). -/
theorem add_signOf (u : Bool) (k : Nat) : AsmOffset.add ⟨some (signOf u), k⟩ = u := by
  cases u <;> rfl

theorem imm8_le (v : BitVec 8) : v.toNat ≤ 255 := Nat.le_of_lt_succ v.isLt

theorem imm12_le (v : BitVec 12) : v.toNat ≤ 4095 := Nat.le_of_lt_succ v.isLt

/-- Settles O7: the line's candidate is the instruction, its sign and immediate read back. -/
theorem everyInstructionHasItsLine : Obligations.EveryInstructionHasItsLine := by
  intro i current hp
  cases i with
  | ldrsbA1Off | ldrsbA1Post | ldrsbA1Pre =>
    refine ⟨_, rfl, assemble_a32 (by simp) current ?_ hp⟩
    simp [candidateA32_offset, candidateA32_post, candidateA32_pre, imm8_le, add_signOf]
  | ldrsbT1 =>
    refine ⟨_, rfl, assemble_t32 (by simp) rfl ?_ hp⟩
    rw [candidateT32_plus rfl (imm12_le _), BitVec.ofNat_toNat, BitVec.setWidth_eq]
  | ldrsbT2Off =>
    refine ⟨_, rfl, assemble_t32 (by simp) rfl ?_ hp⟩
    rw [candidateT32_minus rfl (imm8_le _), BitVec.ofNat_toNat, BitVec.setWidth_eq]
  | ldrsbT2Post | ldrsbT2Pre =>
    refine ⟨_, rfl, assemble_t32 (by simp) rfl ?_ hp⟩
    simp [candidateT32_post, candidateT32_pre, imm8_le, add_signOf]
  | undefinedT2 | seeLdrsbtA1 | seeLdrsbtT2 | seePliT1 | seePliT2 | seeLiteralA1 | seeLiteralT1
  | seeLiteralT2 => exact nomatch hp

/-- Settles O8: each clause is one addressing form's candidate, with registers that make it
predictable. -/
theorem syntaxPicksTheEncoding : Obligations.SyntaxPicksTheEncoding := by
  intro c q rt rn sign imm hq ht hn u
  have hu : AsmOffset.add ⟨sign, imm⟩ = u := by simp [AsmOffset.add, u, bne, beq_eq_decide]
  have hoff : (rn != 15 && rt != 15) = true := by simp [hn, ht]
  have hwb : rt ≠ rn → (rn != 15 && rt != 15 && rt != rn) = true := by simp [hn, ht]
  rw [← hu]
  refine ⟨fun cur => ?_, fun h cur => ?_, fun h hne cur => ⟨?_, ?_⟩, ?_, fun ha h => ?_,
    fun ha h => ?_, fun ha h => ?_, fun h hne => ⟨?_, ?_⟩⟩
  · exact assemble_a32 hq cur rfl hoff
  · exact assemble_a32 hq cur (candidateA32_offset h) hoff
  · exact assemble_a32 hq cur (candidateA32_post h) (hwb hne)
  · exact assemble_a32 hq cur (candidateA32_pre h) (hwb hne)
  · exact assemble_t32 hq rfl rfl hoff
  · exact assemble_t32 hq rfl (candidateT32_plus ha h) hoff
  · exact assemble_t32 hq rfl (candidateT32_minus ha h) hoff
  · exact assemble_t32_none c (candidateT32_minus_none ha h)
  · exact assemble_t32 hq rfl (candidateT32_post h) (hwb hne)
  · exact assemble_t32 hq rfl (candidateT32_pre h) (hwb hne)

end Sys2Proof.Machine
end

section
/-! PROOFS, 30_encoding: what a step does on the UNDEFINED pattern and on the words of other instructions
(R77 to R80). -/
namespace Sys2Proof.Machine

/-! ### A step on a word of each class runs what the Decode steps give -/

section classes
variable {s : State} (hr : FetchReady s)
include hr

theorem step_of_isA1 (hs : s.iset = .a32) (h : isA1 (fetchWord s) = true)
    (hc : field (fetchWord s) 28 4 ≠ 15#4) :
    ∃ c, step s = exec (stepsA1 c (bit (fetchWord s) 24) (bit (fetchWord s) 23)
      (bit (fetchWord s) 21) (field (fetchWord s) 16 4) (field (fetchWord s) 12 4)
      (field (fetchWord s) 8 4 ++ field (fetchWord s) 0 4)) s := by
  obtain ⟨c, hd⟩ := decode_of_isA1 h hc
  exact ⟨c, step_of_ready hr (hs ▸ hd)⟩

theorem step_of_isT1 (hs : s.iset = .t32) (h : isT1 (fetchWord s) = true) :
    step s = exec (stepsT1 (field (fetchWord s) 16 4) (field (fetchWord s) 12 4)
      (field (fetchWord s) 0 12)) s :=
  step_of_ready hr (hs ▸ decode_of_isT1 h)

theorem step_of_isT2 (hs : s.iset = .t32) (h : isT2 (fetchWord s) = true) :
    step s = exec (stepsT2 (bit (fetchWord s) 10) (bit (fetchWord s) 9) (bit (fetchWord s) 8)
      (field (fetchWord s) 16 4) (field (fetchWord s) 12 4) (field (fetchWord s) 0 8)) s :=
  step_of_ready hr (hs ▸ decode_of_isT2 h)

end classes

/-! ### UNDEFINED (R80, R120) -/

theorem undefinedInstruction_raises {c : Cond} {s : State}
    (h : s.params.undefIgnoresCond = true ∨ condHolds c s.flags = true) (w : Word) :
    undefinedInstruction w (some c) s = .next { s with fault := some (.undefinedInstruction w) } :=
  unlessHidden_act (Bool.or_eq_true_iff.2 h)

theorem exec_undefinedT2_raises {u : Bool} {rn rt : BitVec 4} {imm8 : BitVec 8} {c : Cond}
    {s : State} (hi : itCond s.it = some c)
    (h : s.params.undefIgnoresCond = true ∨ condHolds c s.flags = true) :
    exec (.undefinedT2 u rn rt imm8) s =
      .next { s with fault := some (.undefinedInstruction (encode (.undefinedT2 u rn rt imm8))) } := by
  rw [exec_undefinedT2, hi, undefinedInstruction_raises h]

/-- Settles O31: the word decodes to the UNDEFINED row, and is that row's word. -/
theorem undefinedPatternRaises : Obligations.UndefinedPatternRaises := by
  refine ⟨fun c s hr hs hi h hT2 (hp : bit (fetchWord s) 10 = false)
    (hw : bit (fetchWord s) 8 = false) (hn : field (fetchWord s) 16 4 ≠ 15#4) => ?step,
    fun _ _ _ _ c s hi h => exec_undefinedT2_raises hi h⟩
  have hd := decode_of_isT2 hT2
  rw [hp, hw, stepsT2_undefined hn] at hd
  obtain ⟨hword, -, -⟩ := encodeOfDecode _ _ _ hd
  rw [step_of_ready hr (hs ▸ hd), exec_undefinedT2_raises hi h, hword]

/-! ### What can refuse (R124)

The shared operation never refuses once its condition is known, so an instruction refuses only by its
Decode steps or for its `ITSTATE`. -/

def NeverRefuses (o : Host.Outcome State Fault Refusal) : Prop := ∀ r, o ≠ .refused r

theorem NeverRefuses.next (s : State) : NeverRefuses (.next s) := nofun

theorem NeverRefuses.fault (f : Fault) : NeverRefuses (.fault f) := nofun

theorem transfer_neverRefuses {d : Operands} {s : State} : NeverRefuses (transfer d s) := by
  cases h : admits s.params (d.address (s.x d.n)) .dataRead
  · rw [transfer_abort h]; exact .next _
  · rw [transfer_admitted h]; exact .next _

theorem transferUnknown_neverRefuses {d : Operands} {s : State} :
    NeverRefuses (transferUnknown d s) := by
  cases h : admits s.params (d.address (s.x d.n)) .dataRead
  · rw [transferUnknown_abort h]; exact .next _
  · rw [transferUnknown_admitted h]; exact .next _

theorem unlessHidden_neverRefuses {s : State} {b : Bool}
    {act : Host.Outcome State Fault Refusal} (h : NeverRefuses act) :
    NeverRefuses (unlessHidden s b act) := by
  unfold unlessHidden
  split
  · exact h
  · exact .next _

theorem permitted_neverRefuses {o : Config.CuOutcome} {w : Word} {b : Bool} {d : Operands}
    {s : State} : NeverRefuses (permitted o w b d s) := by
  cases o with
  | undef => exact .next _
  | nop => exact .next _
  | loadBaseUnknown =>
    cases b
    · exact .next _
    · exact transferUnknown_neverRefuses

theorem constrained_neverRefuses {w : Word} {b : Bool} {d : Operands} {s : State} :
    NeverRefuses (constrained w b d s) := by
  refine unlessHidden_neverRefuses ?_
  split
  · exact .fault _
  · exact permitted_neverRefuses
  · exact permitted_neverRefuses

theorem withCond_refused {c : Option Cond} {s : State} {r : Refusal}
    {k : Bool → Host.Outcome State Fault Refusal} (hk : ∀ b, NeverRefuses (k b))
    (h : withCond c s k = .refused r) : r = .illegalItstate := by
  cases c with
  | none => cases h; rfl
  | some c => exact absurd h (hk _ r)

theorem loadSignedByte_refused {w : Word} {c : Option Cond} {d : Operands} {s : State} {r : Refusal}
    (h : loadSignedByte w c d s = .refused r) : r = .illegalItstate := by
  refine withCond_refused (fun b => ?_) h
  split
  · exact constrained_neverRefuses
  · cases b
    · exact .next _
    · exact transfer_neverRefuses

theorem unpredictable_refused {q : UnpredictableReason} {c : Option Cond} {s : State} {r : Refusal}
    (h : unpredictable q c s = .refused r) : r = .illegalItstate :=
  withCond_refused (fun _ => unlessHidden_neverRefuses (.fault _)) h

theorem runA1_refused {word : Word} {c : Cond} {p u w : Bool} {rn rt : BitVec 4} {imm8 : BitVec 8}
    {s : State} {r : Refusal} (h : runA1 word c p u w rn rt imm8 s = .refused r) :
    r = .seeLdrsbLiteral ∨ r = .illegalItstate := by
  unfold runA1 at h
  split at h
  · cases h; exact .inl rfl
  · split at h
    · exact .inr (unpredictable_refused h)
    · exact .inr (loadSignedByte_refused h)

theorem execLdrsbT1_refused {rn rt : BitVec 4} {imm12 : BitVec 12} {s : State} {r : Refusal}
    (h : execLdrsbT1 rn rt imm12 s = .refused r) :
    r = .seePli ∨ r = .seeLdrsbLiteral ∨ r = .illegalItstate := by
  unfold execLdrsbT1 at h
  split at h
  · cases h; exact .inl rfl
  · split at h
    · cases h; exact .inr (.inl rfl)
    · exact .inr (.inr (loadSignedByte_refused h))

/-- No A32 instruction refuses as `PLI`. -/
theorem exec_a32_ne_seePli {i : Instr} (hi : i.iset = .a32) (s : State) :
    exec i s ≠ .refused .seePli := by
  intro h
  cases i with
  | ldrsbA1Off | ldrsbA1Post | ldrsbA1Pre => simpa using runA1_refused h
  | seeLdrsbtA1 | seeLiteralA1 => exact nomatch h
  | ldrsbT1 | ldrsbT2Off | ldrsbT2Post | ldrsbT2Pre | undefinedT2 | seeLdrsbtT2 | seePliT1 | seePliT2
  | seeLiteralT1 | seeLiteralT2 => exact nomatch hi

/-- No instruction of class T1 refuses as `LDRSBT`. -/
theorem exec_stepsT1_ne_seeLdrsbt (rn rt : BitVec 4) (imm12 : BitVec 12) (s : State) :
    exec (stepsT1 rn rt imm12) s ≠ .refused .seeLdrsbt := by
  intro h
  unfold stepsT1 at h
  split at h
  · exact nomatch h
  · split at h
    · exact nomatch h
    · simpa using execLdrsbT1_refused h

/-- The refusals of a step before its instruction runs. -/
theorem fetchInstr_refused {s : State} {r : Refusal} (h : fetchInstr s = .refused r) :
    r ∈ [.runOver, .misalignedPc, .illegalItstate, .notLdrsbImmediate] := by
  unfold fetchInstr at h
  split at h
  case h_1 => exact nomatch h
  case h_2 =>
    split at h
    · cases h; simp
    split at h
    · cases h; simp
    split at h
    · cases h; simp
    split at h
    · exact nomatch h
    split at h
    · exact nomatch h
    cases hd : decode s.iset (fetchWord s) with
    | instr i => rw [hd] at h; exact nomatch h
    | notLdrsbImmediate => rw [hd] at h; cases h; simp

/-- A refused step was refused before its instruction ran or by that instruction. -/
theorem step_refused {s : State} {r : Refusal} (h : step s = .refused r) :
    r ∈ [.runOver, .misalignedPc, .illegalItstate, .notLdrsbImmediate] ∨
      ∃ i, decode s.iset (fetchWord s) = .instr i ∧ exec i s = .refused r := by
  unfold step at h
  split at h
  case h_1 i hi => exact .inr ⟨i, (fetchInstr_eq_next hi).2, h⟩
  case h_2 => exact nomatch h
  case h_3 hf =>
    cases h
    exact .inl (fetchInstr_refused hf)

/-! ### Words of other instructions -/

/-- `fieldPUW_iff` at the bits as the decoder reads them. -/
theorem bitsPUW_iff {v : Word} {p u w : Bool} :
    v.extractLsb' 8 3 = BitVec.ofBool p ++ BitVec.ofBool u ++ BitVec.ofBool w ↔
      bit v 10 = p ∧ bit v 9 = u ∧ bit v 8 = w := fieldPUW_iff

/-- Settles O33: in each class the Decode steps give the `Rn == '1111'` row. -/
theorem literalWordsAreRefused : Obligations.LiteralWordsAreRefused := by
  refine ⟨fun s hr (hn : field (fetchWord s) 16 4 = 15#4) h => ?step, fun _ _ _ _ _ _ _ => rfl,
    fun _ _ _ => rfl, fun _ _ _ _ _ _ => rfl⟩
  obtain ⟨hs, hA1, hc⟩ | ⟨hs, hT1, (ht : field (fetchWord s) 12 4 ≠ 15#4)⟩ | ⟨hs, hT2, hpli⟩ := h
  · obtain ⟨c, hstep⟩ := step_of_isA1 hr hs hA1 hc
    rw [hstep, hn, stepsA1_literal]
    rfl
  · rw [step_of_isT1 hr hs hT1, hn, stepsT1_literal ht]
    rfl
  · rw [step_of_isT2 hr hs hT2, hn,
      stepsT2_literal fun ⟨(ht : field (fetchWord s) 12 4 = 15#4), hpuw⟩ =>
        hpli ⟨ht, bitsPUW_iff.2 hpuw⟩]
    rfl

/-- Settles O34: the `PLI` test is the first Decode step of both T32 classes, and no A32 instruction
refuses so. -/
theorem pliWordsAreRefused : Obligations.PliWordsAreRefused := by
  refine ⟨fun s hr hs (ht : field (fetchWord s) 12 4 = 15#4) h => ?step, fun _ _ _ => rfl,
    fun _ _ _ => rfl, fun s hs h => ?a32⟩
  case step =>
    obtain hT1 | ⟨hT2, hpuw⟩ := h
    · rw [step_of_isT1 hr hs hT1, ht, stepsT1_pli]
      rfl
    · obtain ⟨hp, hu, hw⟩ := (bitsPUW_iff (p := true) (u := false) (w := false)).1 hpuw
      rw [step_of_isT2 hr hs hT2, ht, hp, hu, hw, stepsT2_pli]
      rfl
  case a32 =>
    obtain hf | ⟨i, hd, he⟩ := step_refused h
    · simp at hf
    · exact exec_a32_ne_seePli ((iset_of_decode hd).trans hs) s he

/-- Settles O35: in A1 and T2 the Decode steps give the `LDRSBT` row, in T1 none does. -/
theorem ldrsbtWordsAreRefused : Obligations.LdrsbtWordsAreRefused := by
  refine ⟨fun s hr (hn : field (fetchWord s) 16 4 ≠ 15#4) h => ?step, fun _ _ _ _ _ _ => rfl,
    fun _ _ _ _ => rfl, fun s hs hT1 h => ?t1⟩
  case step =>
    obtain ⟨hs, hA1, hc, (hp : bit (fetchWord s) 24 = false), (hw : bit (fetchWord s) 21 = true)⟩ |
      ⟨hs, hT2, hpuw⟩ := h
    · obtain ⟨c, hstep⟩ := step_of_isA1 hr hs hA1 hc
      rw [hstep, hp, hw, stepsA1_ldrsbt hn]
      rfl
    · obtain ⟨hp, hu, hw⟩ := (bitsPUW_iff (p := true) (u := true) (w := false)).1 hpuw
      rw [step_of_isT2 hr hs hT2, hp, hu, hw, stepsT2_ldrsbt hn]
      rfl
  case t1 =>
    obtain hf | ⟨i, hd, he⟩ := step_refused h
    · simp at hf
    · rw [hs, decode_of_isT1 hT1] at hd
      cases hd
      exact exec_stepsT1_ne_seeLdrsbt _ _ _ s he

end Sys2Proof.Machine
end

section
/-! PROOFS, 40_ldrsb_immediate: the shared operation and the result of each of the seven encodings (R92,
R97 to R103, R109). -/
namespace Sys2Proof.Machine

/-! ### A defined `LDRSB` in its three cases: `exec_loaded`, `exec_abort` and this one -/

/-- A defined `LDRSB` whose condition fails. -/
theorem exec_failed {i : Instr} {d : Operands} {c : Cond} {s : State} (ho : operandsOf i = some d)
    (hd : d.defined) (hc : condOf s i = some c) (hp : condHolds c s.flags = false) :
    exec i s = .next s.past := by
  rw [exec_eq_loadSignedByte s ho, hc, loadSignedByte_failed hd hp, State.advance_eq_past]

/-- Settles O23: `exec_failed` is its statement. -/
theorem failedConditionOnlyAdvances : Obligations.FailedConditionOnlyAdvances :=
  fun _ _ _ _ ho hd hc hp => exec_failed ho hd hc hp

/-- Settles O12: the three cases of a defined `LDRSB`. -/
theorem sharedOperation : Obligations.SharedOperation := by
  intro i d c s ho hd hc base offsetAddr address
  split
  case isTrue hp =>
    split
    case isTrue ha =>
      exact (exec_loaded ho hd hc hp ha).trans (congrArg _ (State.advance_eq_past _))
    case isFalse ha => exact exec_abort ho hd hc hp (Bool.eq_false_iff.2 ha)
  case isFalse hp => exact exec_failed ho hd hc (Bool.eq_false_iff.2 hp)

/-! ### The completed load without and with write-back -/

theorem State.loaded_of_not_wback {d : Operands} {s : State} (hw : d.wback = false) :
    s.loaded d = (s.setX d.t (sext32 (s.mem.read (d.address (s.x d.n))))).past := by
  rw [State.loaded, State.advance_eq_past, hw]
  rfl

theorem State.loaded_of_wback {d : Operands} {s : State} (hw : d.wback = true) :
    s.loaded d = ((s.setX d.t (sext32 (s.mem.read (d.address (s.x d.n))))).setX d.n
      (d.offsetAddr (s.x d.n))).past := by
  rw [State.loaded, State.advance_eq_past, hw]
  rfl

theorem defined_of_ne {d : Operands} (h : d.n ≠ d.t) : d.defined := fun hd => h hd.2

section results
variable {i : Instr} {d : Operands} {c : Cond} {s : State} (ho : operandsOf i = some d)
  (hc : condOf s i = some c) (hp : condHolds c s.flags = true)
  (ha : admits s.params (d.address (s.x d.n)) .dataRead = true)
include ho hc hp ha

theorem exec_of_not_wback (hw : d.wback = false) :
    exec i s = .next (s.setX d.t (sext32 (s.mem.read (d.address (s.x d.n))))).past := by
  rw [exec_loaded ho (defined_of_wback_false hw) hc hp ha, State.loaded_of_not_wback hw]

theorem exec_of_wback (hw : d.wback = true) (hne : d.n ≠ d.t) :
    exec i s = .next ((s.setX d.t (sext32 (s.mem.read (d.address (s.x d.n))))).setX d.n
      (d.offsetAddr (s.x d.n))).past := by
  rw [exec_loaded ho (defined_of_ne hne) hc hp ha, State.loaded_of_wback hw]

end results

/-! ### The seven encodings

The operands of a row (R91) are those of its class at fixed `P` and `W`, which say whether it writes
back. -/

theorem operandsFrom_of {rn rt : BitVec 4} {n t : RegNum} (hn : gp? rn = some n)
    (ht : gp? rt = some t) (f : RegNum → RegNum → Operands) :
    operandsFrom rn rt f = some (f n t) :=
  operandsFrom_eq_some.2 ⟨n, t, hn, ht, rfl⟩

/-- Settles O13: an A1 form with `P = 1` and `W = 0`, without write-back. -/
theorem ldrsbA1OffLoads : Obligations.LdrsbA1OffLoads :=
  fun c u rn rt imm8 _ _ _ hn ht hp ha =>
    exec_of_not_wback (i := .ldrsbA1Off c u rn rt imm8) (operandsFrom_of hn ht _) rfl hp ha rfl

/-- Settles O14: an A1 form with `P = 0`, which writes back and reads at the old base. -/
theorem ldrsbA1PostLoadsAndWritesBack : Obligations.LdrsbA1PostLoadsAndWritesBack :=
  fun c u rn rt imm8 _ _ _ hn ht hne hp ha =>
    exec_of_wback (i := .ldrsbA1Post c u rn rt imm8) (operandsFrom_of hn ht _) rfl hp ha rfl hne

/-- Settles O15: an A1 form with `P = 1` and `W = 1`, which writes back and reads at the new base. -/
theorem ldrsbA1PreLoadsAndWritesBack : Obligations.LdrsbA1PreLoadsAndWritesBack :=
  fun c u rn rt imm8 _ _ _ hn ht hne hp ha =>
    exec_of_wback (i := .ldrsbA1Pre c u rn rt imm8) (operandsFrom_of hn ht _) rfl hp ha rfl hne

/-- Settles O16: class T1 never writes back. -/
theorem ldrsbT1Loads : Obligations.LdrsbT1Loads :=
  fun rn rt imm12 _ _ _ _ hn ht hc hp ha =>
    exec_of_not_wback (i := .ldrsbT1 rn rt imm12) (operandsFrom_of hn ht _) hc hp ha rfl

/-- Settles O17: a T2 form with `W = 0`, without write-back. -/
theorem ldrsbT2OffLoads : Obligations.LdrsbT2OffLoads :=
  fun rn rt imm8 _ _ _ _ hn ht hc hp ha =>
    exec_of_not_wback (i := .ldrsbT2Off rn rt imm8) (operandsFrom_of hn ht _) hc hp ha rfl

/-- Settles O18: a T2 form with `P = 0` and `W = 1`, which writes back and reads at the old base. -/
theorem ldrsbT2PostLoadsAndWritesBack : Obligations.LdrsbT2PostLoadsAndWritesBack :=
  fun u rn rt imm8 _ _ _ _ hn ht hne hc hp ha =>
    exec_of_wback (i := .ldrsbT2Post u rn rt imm8) (operandsFrom_of hn ht _) hc hp ha rfl hne

/-- Settles O19: a T2 form with `P = 1` and `W = 1`, which writes back and reads at the new base. -/
theorem ldrsbT2PreLoadsAndWritesBack : Obligations.LdrsbT2PreLoadsAndWritesBack :=
  fun u rn rt imm8 _ _ _ _ hn ht hne hc hp ha =>
    exec_of_wback (i := .ldrsbT2Pre u rn rt imm8) (operandsFrom_of hn ht _) hc hp ha rfl hne

end Sys2Proof.Machine
end

section
/-! PROOFS, 40_ldrsb_immediate: the parts of the operation, which are the address arithmetic, the loaded
byte and the write-back (R93 to R95). -/
namespace Sys2Proof.Machine

/-! ### The address arithmetic (R93) -/

theorem zext32_lt_4096 {m : Nat} (h : m ≤ 12) (v : BitVec m) : (zext32 v).toNat < 4096 := by
  rw [zext32_toNat (by omega)]
  exact v.isLt.trans_le (Nat.pow_le_pow_right (by decide) h)

/-- The immediate has 12 bits in T1, 8 in A1 and T2. -/
theorem imm32_lt_4096 {i : Instr} {d : Operands} (h : operandsOf i = some d) :
    d.imm32.toNat < 4096 := by
  cases i with
  | ldrsbA1Off | ldrsbA1Post | ldrsbA1Pre | ldrsbT1 | ldrsbT2Off | ldrsbT2Post | ldrsbT2Pre =>
    obtain ⟨n, t, -, -, rfl⟩ := operandsFrom_eq_some.1 h
    exact zext32_lt_4096 (by decide) _
  | undefinedT2 | seeLdrsbtA1 | seeLdrsbtT2 | seePliT1 | seePliT2 | seeLiteralA1 | seeLiteralT1
  | seeLiteralT2 => exact nomatch h

theorem Operands.offsetAddr_add {d : Operands} (h : d.add = true) (base : Word) :
    d.offsetAddr base = base + d.imm32 := if_pos h

theorem Operands.offsetAddr_sub {d : Operands} (h : d.add = false) (base : Word) :
    d.offsetAddr base = base - d.imm32 := if_neg (by simp [h])

theorem Operands.offsetAddr_zero {d : Operands} (h : d.imm32 = 0) (base : Word) :
    d.offsetAddr base = base := by
  cases ha : d.add
  · rw [offsetAddr_sub ha, h]; exact BitVec.sub_zero base
  · rw [offsetAddr_add ha, h]; exact BitVec.add_zero base

/-- The difference of words is that of the integers modulo 2^32. -/
theorem toNat_sub_emod (a b : Word) : ((a - b).toNat : Int) = ((a.toNat : Int) - b.toNat) % 2 ^ 32 := by
  rw [BitVec.toNat_sub]
  omega

/-- Settles O20: the immediate's width, and the sum and difference of words in arithmetic. -/
theorem addressArithmeticWraps : Obligations.AddressArithmeticWraps := by
  refine fun i d base h => ⟨imm32_lt_4096 h, fun ha => ?add, fun ha => ?sub,
    fun hz => Operands.offsetAddr_zero hz base⟩
  case add => rw [Operands.offsetAddr_add ha, BitVec.toNat_add]
  case sub => rw [Operands.offsetAddr_sub ha, toNat_sub_emod]

/-! ### The registers after a completed load -/

/-- The destination holds the byte: the base, where it is written after, is another register. -/
theorem State.loaded_x_t {d : Operands} (hd : d.defined) (s : State) :
    (s.loaded d).x d.t = sext32 (s.mem.read (d.address (s.x d.n))) := by
  cases hw : d.wback
  · rw [State.loaded_of_not_wback hw]
    exact State.x_setX_self ..
  · rw [State.loaded_of_wback hw]
    have hne : d.t ≠ d.n := fun he => hd ⟨hw, he.symm⟩
    exact (State.x_setX_ne _ hne _).trans (State.x_setX_self ..)

theorem State.loaded_x_n_of_wback {d : Operands} (hw : d.wback = true) (s : State) :
    (s.loaded d).x d.n = d.offsetAddr (s.x d.n) := by
  rw [State.loaded_of_wback hw]
  exact State.x_setX_self ..

theorem State.loaded_x_n_of_not_wback {d : Operands} (hw : d.wback = false) (hne : d.n ≠ d.t)
    (s : State) : (s.loaded d).x d.n = s.x d.n := by
  rw [State.loaded_of_not_wback hw]
  exact State.x_setX_ne _ hne _

/-! ### The sign extension (R94) -/

theorem sext32_getLsbD_low (b : Byte) {k : Nat} (h : k < 8) :
    (sext32 b).getLsbD k = b.getLsbD k := by
  rw [sext32, BitVec.getLsbD_signExtend, if_pos h, decide_eq_true (by omega), Bool.true_and]

theorem sext32_getLsbD_high (b : Byte) {k : Nat} (h : 8 ≤ k) (hk : k < 32) :
    (sext32 b).getLsbD k = b.getLsbD 7 := by
  rw [sext32, BitVec.getLsbD_signExtend, if_neg (by omega), decide_eq_true hk, Bool.true_and,
    BitVec.msb_eq_getLsbD_last]

theorem sext32_toInt (b : Byte) : (sext32 b).toInt = b.toInt :=
  BitVec.toInt_signExtend_of_le (by decide)

theorem sext32_toInt_range (b : Byte) : -128 ≤ (sext32 b).toInt ∧ (sext32 b).toInt ≤ 127 := by
  rw [sext32_toInt]
  have hlo := BitVec.le_toInt b
  have hhi := BitVec.toInt_lt (x := b)
  omega

/-- Settles O21: the destination holds the byte's sign extension; no other byte is read (O43). -/
theorem loadedByteIsSignExtended : Obligations.LoadedByteIsSignExtended := by
  intro i d c s s' ho hd hc hp h ha b
  obtain rfl : s.loaded d = s' := Host.Outcome.next.inj ((exec_loaded ho hd hc hp ha).symm.trans h)
  have hx : (s.loaded d).x d.t = sext32 b := s.loaded_x_t hd
  obtain ⟨hlo, hhi⟩ := sext32_toInt_range b
  rw [hx]
  refine ⟨fun k hk => sext32_getLsbD_low b hk, fun k => sext32_getLsbD_high b, hlo, hhi,
    fun m hm => ?_⟩
  exact (onlyTheAddressedByteIsRead i d c s m ho hc fun _ => hm).1 _ h

/-- Settles O22: the base after `State.loaded`. -/
theorem writeBackGivesTheBaseOffsetAddr : Obligations.WriteBackGivesTheBaseOffsetAddr := by
  intro i d c s s' ho hd hc hp ha h
  obtain rfl : s.loaded d = s' := Host.Outcome.next.inj ((exec_loaded ho hd hc hp ha).symm.trans h)
  refine ⟨fun hw => s.loaded_x_n_of_wback hw, fun hw hz => ?zero,
    fun hw hne => s.loaded_x_n_of_not_wback hw hne⟩
  rw [s.loaded_x_n_of_wback hw, Operands.offsetAddr_zero hz]

end Sys2Proof.Machine
end

section
/-! PROOFS, 40_ldrsb_immediate: `t == 15`, and write-back to the destination under `CU_WBACK_N_EQ_T`
(R104 to R108). -/
namespace Sys2Proof.Machine

/-! ### The UNPREDICTABLE operations, where a failed condition does not hide them -/

section acts
variable {c : Cond} {s : State} (h : s.params.undefIgnoresCond = true ∨ condHolds c s.flags = true)
include h

theorem unlessHidden_acts (act : Host.Outcome State Fault Refusal) :
    unlessHidden s (condHolds c s.flags) act = act :=
  unlessHidden_act (Bool.or_eq_true_iff.2 h)

theorem unpredictable_acts (r : UnpredictableReason) :
    unpredictable r (some c) s = .fault (.unpredictable r) :=
  unlessHidden_acts h _

theorem runA1_rt15_faults {rn : BitVec 4} (hn : rn ≠ 15#4) (word : Word) (p u w : Bool)
    (imm8 : BitVec 8) :
    runA1 word c p u w rn 15 imm8 s = .fault (.unpredictable .a1Rt15) := by
  rw [runA1_rt15 hn, unpredictable_acts h]

theorem runT2Wback_rt15_faults {rn : BitVec 4} (hn : rn ≠ 15#4) (hi : itCond s.it = some c)
    (word : Word) (p u : Bool) (imm8 : BitVec 8) :
    runT2Wback word p u rn 15 imm8 s = .fault (.unpredictable .t2Rt15W) := by
  rw [runT2Wback_rt15 hn, hi, unpredictable_acts h]

theorem constrained_specFault (hcu : s.params.cuWback = .specFault) (w : Word) (d : Operands) :
    constrained w (condHolds c s.flags) d s = .fault (.unpredictable .wbackNEqT) := by
  rw [constrained, unlessHidden_acts h, hcu]

theorem constrained_fixed {o : Config.CuOutcome} (hcu : s.params.cuWback = .fixed o) (w : Word)
    (d : Operands) :
    constrained w (condHolds c s.flags) d s = permitted o w (condHolds c s.flags) d s := by
  rw [constrained, unlessHidden_acts h, hcu]

theorem constrained_drawn (hcu : s.params.cuWback = .drawn) (w : Word) (d : Operands) :
    constrained w (condHolds c s.flags) d s =
      permitted (Config.cuDraw s.draws) w (condHolds c s.flags) d s.drawn := by
  rw [constrained, unlessHidden_acts h, hcu]

end acts

/-- Settles O27: the three A1 forms are `runA1`, which faults at `t == 15`. -/
theorem a1Rt15IsUnpredictable : Obligations.A1Rt15IsUnpredictable := by
  refine fun c u rn imm8 s hn h => ⟨?off, ?post, ?pre⟩
  case off => rw [exec_ldrsbA1Off, runA1_rt15_faults h hn]
  case post => rw [exec_ldrsbA1Post, runA1_rt15_faults h hn]
  case pre => rw [exec_ldrsbA1Pre, runA1_rt15_faults h hn]

/-- Settles O28: both write-back forms are `runT2Wback`, which faults at `t == 15`. -/
theorem t2WbackRt15IsUnpredictable : Obligations.T2WbackRt15IsUnpredictable := by
  refine fun u rn imm8 c s hn hi h => ⟨?post, ?pre⟩
  case post => rw [exec_ldrsbT2Post, runT2Wback_rt15_faults h hn hi]
  case pre => rw [exec_ldrsbT2Pre, runT2Wback_rt15_faults h hn hi]

/-! ### The three permitted outcomes (R108) -/

theorem permitted_undef (w : Word) (b : Bool) (d : Operands) (s : State) :
    permitted .undef w b d s = .next { s with fault := some (.undefinedInstruction w) } := rfl

theorem permitted_nop (w : Word) (b : Bool) (d : Operands) (s : State) :
    permitted .nop w b d s = .next s.past :=
  congrArg _ s.advance_eq_past

theorem permitted_loadBaseUnknown_failed (w : Word) (d : Operands) (s : State) :
    permitted .loadBaseUnknown w false d s = .next s.past :=
  congrArg _ s.advance_eq_past

theorem permitted_loadBaseUnknown_passed (w : Word) (d : Operands) (s : State) :
    permitted .loadBaseUnknown w true d s = transferUnknown d s := rfl

/-- `LOAD_BASE_UNKNOWN` past the instruction: the UNKNOWN value in register `n`, and one draw. -/
theorem State.unknownAt_advance (n : RegNum) (s : State) :
    (s.unknownAt n).advance =
      { (s.setX n (Config.unknownWord s.draws)).past with draws := s.draws + 1 } := by
  rw [State.advance_eq_past]
  rfl

/-- `LOAD_BASE_UNKNOWN` by admission, and by what the launch says of an abort. -/
theorem transferUnknown_eq (d : Operands) (s : State) :
    transferUnknown d s =
      if admits s.params (d.address (s.x d.n)) .dataRead = true then
        .next { (s.setX d.n (Config.unknownWord s.draws)).past with draws := s.draws + 1 }
      else if s.params.abortCorruptsBase = true then
        .next { s.setX d.n (Config.unknownWord s.draws) with
          fault := some (.dataAbort (d.address (s.x d.n))), draws := s.draws + 1 }
      else .next { s with fault := some (.dataAbort (d.address (s.x d.n))) } := by
  split
  case isTrue ha => rw [transferUnknown_admitted ha, State.unknownAt_advance]
  case isFalse ha =>
    rw [transferUnknown_abort (Bool.eq_false_iff.2 ha)]
    split
    · rfl
    · rfl

/-- Settles O29: what the launch's `CU_WBACK_N_EQ_T` picks, value by value. -/
theorem wbackToTheDestinationIsConstrained : Obligations.WbackToTheDestinationIsConstrained := by
  intro i d c s ho hd hc h
  rw [exec_constrained ho hd hc]
  refine ⟨fun hcu => ?specFault, fun hcu => ?undef, fun hcu => ?nop, fun hcu hp => ?failed,
    fun hcu hp => ⟨Config.unknownWord s.draws, s.draws + 1, ?passed⟩⟩
  case specFault => rw [constrained_specFault h hcu]
  case undef => rw [constrained_fixed h hcu, permitted_undef]
  case nop => rw [constrained_fixed h hcu, permitted_nop]
  case failed => rw [constrained_fixed h hcu, hp, permitted_loadBaseUnknown_failed]
  case passed =>
    rw [constrained_fixed h hcu, hp, permitted_loadBaseUnknown_passed, transferUnknown_eq]

/-- Settles O30: the choice is one of three, made after one draw; `LOAD_BASE_UNKNOWN` draws once more. -/
theorem drawnOutcomeIsPermitted : Obligations.DrawnOutcomeIsPermitted := by
  intro i d c s ho hd hc hp hcu ha
  rw [exec_constrained ho hd hc, constrained_drawn (.inr hp) hcu, hp]
  cases Config.cuDraw s.draws with
  | undef => exact ⟨_, permitted_undef .., Nat.lt_succ_self _, .inl rfl⟩
  | nop => exact ⟨_, permitted_nop .., Nat.lt_succ_self _, .inr (.inl rfl)⟩
  | loadBaseUnknown =>
    have hload : transferUnknown d s.drawn = .next _ :=
      (transferUnknown_eq d s.drawn).trans (if_pos ha)
    exact ⟨_, hload, Nat.lt_succ_of_lt (Nat.lt_succ_self _), .inr (.inr ⟨_, rfl⟩)⟩

end Sys2Proof.Machine
end

section
/-! PROOFS, 40_ldrsb_immediate: the part the condition and the flags play (R109, R112), and the
instruction a step runs (R116). -/
namespace Sys2Proof.Machine

/-! ### Flags are read only through the condition (R112) -/

/-- The state with other flags. -/
def State.withFlags (f : Flags) (s : State) : State := { s with flags := f }

/-- An instruction does the same with other flags under which its condition answers the same: the case of
`exec_viewed` that leaves `dit` and memory alone. -/
theorem exec_withFlags (i : Instr) (s : State) (f : Flags)
    (hc : ∀ k, condOf s i = some k → condHolds k f = condHolds k s.flags) :
    exec i (s.withFlags f) = mapNext (State.withFlags f) (exec i s) := by
  have hv : exec i (s.withFlags f) = mapNext (State.viewed f s.dit s.mem) (exec i s) :=
    exec_viewed i hc fun _ _ _ _ _ => rfl
  rw [hv]
  cases h : exec i s with
  | fault g => rfl
  | refused r => rfl
  | next t =>
    obtain ⟨-, -, -, hdit, hmem, -⟩ := (exec_effect i s).keeps h
    simp only [mapNext, State.viewed, State.withFlags, ← hdit, ← hmem]

/-- Settles O40: an instruction commutes with such a change of flags, and keeps them. -/
theorem flagsAreReadOnlyThroughTheCondition : Obligations.FlagsAreReadOnlyThroughTheCondition := by
  intro i s f hc
  have hexec : exec i { s with flags := f } = mapNext (State.withFlags f) (exec i s) :=
    exec_withFlags i s f hc
  refine ⟨fun s' h => ?next, fun g h => ?fault, fun r h => ?refused⟩
  case next =>
    obtain ⟨-, hflags, hset, hdit, -⟩ := (exec_effect i s).keeps h
    exact ⟨hflags, hset, hdit, by rw [hexec, h]; rfl⟩
  case fault => rw [hexec, h]; rfl
  case refused => rw [hexec, h]; rfl

/-! ### The decode outcomes do not depend on the condition (R109, D16) -/

/-- Where the first outcome stops the machine, the second stops it the same way. -/
def StopsAlike (o o' : Host.Outcome State Fault Refusal) : Prop :=
  (∀ r, o = .refused r → o' = .refused r) ∧ (∀ g, o = .fault g → o' = .fault g)

theorem StopsAlike.of_eq {o o' : Host.Outcome State Fault Refusal} (h : o' = o) : StopsAlike o o' :=
  ⟨fun _ hr => h.trans hr, fun _ hg => h.trans hg⟩

theorem StopsAlike.next (t : State) (o' : Host.Outcome State Fault Refusal) :
    StopsAlike (.next t) o' :=
  ⟨fun _ => nofun, fun _ => nofun⟩

theorem transfer_stopsAlike (d : Operands) (s : State) (o' : Host.Outcome State Fault Refusal) :
    StopsAlike (transfer d s) o' := by
  cases ha : admits s.params (d.address (s.x d.n)) .dataRead
  · rw [transfer_abort ha]; exact .next _ _
  · rw [transfer_admitted ha]; exact .next _ _

theorem transferUnknown_stopsAlike (d : Operands) (s : State)
    (o' : Host.Outcome State Fault Refusal) : StopsAlike (transferUnknown d s) o' := by
  cases ha : admits s.params (d.address (s.x d.n)) .dataRead
  · rw [transferUnknown_abort ha]; exact .next _ _
  · rw [transferUnknown_admitted ha]; exact .next _ _

theorem permitted_stopsAlike (o : Config.CuOutcome) (w : Word) (b : Bool) (d : Operands) (s : State)
    (o' : Host.Outcome State Fault Refusal) : StopsAlike (permitted o w b d s) o' := by
  cases o with
  | undef => exact .next _ _
  | nop => exact .next _ _
  | loadBaseUnknown =>
    cases b
    · exact .next _ _
    · exact transferUnknown_stopsAlike d s o'

section alike
variable {s : State} (hu : s.params.undefIgnoresCond = true) (f : Flags)
include hu

theorem constrained_stopsAlike (w : Word) (c : Cond) (d : Operands) :
    StopsAlike (constrained w (condHolds c s.flags) d s)
      (constrained w (condHolds c f) d (s.withFlags f)) := by
  cases hcu : s.params.cuWback with
  | specFault =>
    rw [constrained_specFault (.inl hu) hcu]
    exact .of_eq (constrained_specFault (s := s.withFlags f) (.inl hu) hcu w d)
  | fixed o =>
    rw [constrained_fixed (.inl hu) hcu]
    exact permitted_stopsAlike ..
  | drawn =>
    rw [constrained_drawn (.inl hu) hcu]
    exact permitted_stopsAlike ..

theorem loadSignedByte_stopsAlike (w : Word) (c : Option Cond) (d : Operands) :
    StopsAlike (loadSignedByte w c d s) (loadSignedByte w c d (s.withFlags f)) := by
  cases c with
  | none => exact .of_eq rfl
  | some c =>
    by_cases hd : d.defined
    · cases hp : condHolds c s.flags
      · rw [loadSignedByte_failed hd hp]; exact .next _ _
      · rw [loadSignedByte_passed hd hp]; exact transfer_stopsAlike ..
    · obtain ⟨hw, hn⟩ : d.wback = true ∧ d.n = d.t := not_not.1 hd
      rw [loadSignedByte_constrained hw hn, loadSignedByte_constrained hw hn]
      exact constrained_stopsAlike hu f w c d

/-- An UNPREDICTABLE word does the same whatever the flags are, and the UNDEFINED row goes on. -/
theorem exec_stopsAlike (i : Instr) : StopsAlike (exec i s) (exec i (s.withFlags f)) := by
  have hco : condOf (s.withFlags f) i = condOf s i := condOf_congr i rfl
  rcases exec_shape i with ⟨r, he, -⟩ | ⟨r, he⟩ | ⟨-, he⟩ | ⟨d, -, he⟩ <;> simp only [he, hco]
  · exact .of_eq rfl
  · cases condOf s i with
    | none => exact .of_eq rfl
    | some c =>
      rw [unpredictable_acts (.inl hu)]
      exact .of_eq (unpredictable_acts (s := s.withFlags f) (.inl hu) r)
  · cases condOf s i with
    | none => exact .of_eq rfl
    | some c =>
      rw [undefinedInstruction_raises (.inl hu)]
      exact .next _ _
  · exact loadSignedByte_stopsAlike hu f _ _ d

end alike

/-- Settles O24: refusals and faults by `exec_stopsAlike`; the UNDEFINED row, whose `ITSTATE` gives a
condition as it goes on, raises its exception under any flags. -/
theorem decodeOutcomesIgnoreTheCondition : Obligations.DecodeOutcomesIgnoreTheCondition := by
  refine fun s f hu => ⟨fun i => (exec_stopsAlike hu f i).1, fun i => (exec_stopsAlike hu f i).2,
    fun u rn rt imm8 s' h => ?undefined⟩
  cases hi : itCond s.it with
  | none =>
    rw [exec_undefinedT2, hi] at h
    exact nomatch h
  | some c =>
    rw [exec_undefinedT2_raises hi (.inl hu)] at h
    cases h
    exact exec_undefinedT2_raises (s := s.withFlags f) hi (.inl hu)

/-! ### The step (R116) -/

/-- A step of a state ready to fetch whose word decodes to no instruction. -/
theorem step_notLdrsbImmediate {s : State} (h : FetchReady s)
    (hd : decode s.iset (fetchWord s) = .notLdrsbImmediate) :
    step s = .refused .notLdrsbImmediate := by
  simp only [step, fetchInstr_ready h, hd, ofDecoded]

/-- Settles O44: the fetch of a ready state gives what the word decodes to. -/
theorem stepRunsTheDecodedInstruction : Obligations.StepRunsTheDecodedInstruction :=
  fun _ h => ⟨fun _ hi => step_of_ready h hi, step_notLdrsbImmediate h⟩

end Sys2Proof.Machine
end

section
/-! PROOFS, 60_exceptions: what raising an exception changes, and that it stops the machine
(R120, R128). -/
namespace Sys2Proof.Machine

/-- Settles O38: the row writes no register; past it or at its exception, no count moved. -/
theorem undefinedFrame : Obligations.UndefinedFrame := by
  intro u rn rt imm8 s s' h
  obtain ⟨hx, hflags, hset, hdit, hparams, hit, hmem⟩ := exec_frame h
  have hend : s'.draws = s.draws ∧ (s'.fault = s.fault ∨
      s'.fault = some (.undefinedInstruction (encode (.undefinedT2 u rn rt imm8)))) := by
    rw [exec_undefinedT2] at h
    rcases undefinedInstruction_next h with rfl | rfl
    · exact ⟨rfl, .inl rfl⟩
    · exact ⟨rfl, .inr rfl⟩
  obtain ⟨hdraws, hfault⟩ := hend
  exact ⟨fun r => hx r (by simp [writes]), hflags, hset, hdit, hparams, hdraws, hit, hfault, hmem⟩

/-! ### Raising changes the fault alone -/

/-- `s'` has the fault of `s`, or is `s` with a newly recorded fault and no other change. -/
def RaisesAlone (s s' : State) : Prop :=
  s'.fault = s.fault ∨ ∃ f, s' = { s with fault := some f }

/-- A fault that was not recorded before was raised alone. -/
theorem RaisesAlone.eq_withFault {s s' : State} {f : Fault} (h : RaisesAlone s s')
    (hs : s.fault = none) (hf : s'.fault = some f) : s' = { s with fault := some f } := by
  rcases h with he | ⟨g, rfl⟩
  · rw [he, hs] at hf
    exact nomatch hf
  · rw [← hf]

/-- Every instruction with defined operands, or with none. -/
theorem exec_raisesAlone {i : Instr} {s s' : State}
    (hd : ∀ d, operandsOf i = some d → d.defined) (h : exec i s = .next s') :
    RaisesAlone s s' := by
  rcases exec_shape i with ⟨r, he, -⟩ | ⟨r, he⟩ | ⟨-, he⟩ | ⟨d, ho, he⟩ <;> rw [he] at h
  · exact nomatch h
  · rw [unpredictable_next h]
    exact .inl rfl
  · rcases undefinedInstruction_next h with rfl | rfl
    · exact .inl rfl
    · exact .inr ⟨_, rfl⟩
  · rcases loadSignedByte_next (hd d ho) h with rfl | rfl | rfl
    · exact .inl rfl
    · exact .inl (s.loaded_fault d)
    · exact .inr ⟨_, rfl⟩

/-! ### Write-back to the destination, where an abort does not corrupt the base (log entry 14) -/

theorem transferUnknown_raisesAlone {d : Operands} {s s' : State}
    (hp : s.params.abortCorruptsBase = false) (h : transferUnknown d s = .next s') :
    RaisesAlone s s' := by
  cases ha : admits s.params (d.address (s.x d.n)) .dataRead
  · rw [transferUnknown_abort ha, hp] at h
    cases h
    exact .inr ⟨_, rfl⟩
  · rw [transferUnknown_admitted ha] at h
    cases h
    exact .inl rfl

theorem permitted_raisesAlone {o : Config.CuOutcome} {w : Word} {b : Bool} {d : Operands}
    {s s' : State} (hp : s.params.abortCorruptsBase = false) (h : permitted o w b d s = .next s') :
    RaisesAlone s s' := by
  cases o with
  | undef =>
    cases h
    exact .inr ⟨_, rfl⟩
  | nop =>
    cases h
    exact .inl rfl
  | loadBaseUnknown =>
    cases b
    · cases h
      exact .inl rfl
    · exact transferUnknown_raisesAlone hp h

/-- Under the drawn policy the exception is raised in the state that counts the choice. -/
theorem constrained_raisesAlone {w : Word} {b : Bool} {d : Operands} {s s' : State}
    (hp : s.params.abortCorruptsBase = false) (h : constrained w b d s = .next s') :
    RaisesAlone s s' ∨ RaisesAlone s.drawn s' := by
  unfold constrained unlessHidden at h
  split at h
  · split at h
    · exact nomatch h
    · exact .inl (permitted_raisesAlone hp h)
    · exact .inr (permitted_raisesAlone (s := s.drawn) hp h)
  · cases h
    exact .inl (.inl rfl)

/-- Every instruction, in a launch that does not let an abort corrupt the base. -/
theorem exec_raisesAlone_uncorrupted {i : Instr} {s s' : State}
    (hp : s.params.abortCorruptsBase = false) (h : exec i s = .next s') :
    RaisesAlone s s' ∨ RaisesAlone s.drawn s' := by
  by_cases hdef : ∀ d, operandsOf i = some d → d.defined
  · exact .inl (exec_raisesAlone hdef h)
  · push Not at hdef
    obtain ⟨d, ho, hd⟩ := hdef
    cases hc : condOf s i with
    | none =>
      rw [exec_eq_loadSignedByte s ho, hc] at h
      exact nomatch h
    | some c =>
      rw [exec_constrained ho hd hc] at h
      exact constrained_raisesAlone hp h

/-! ### A recorded fault stops every run -/

theorem run_succ_faulted {s : State} {f : Fault} (h : s.fault = some f) (k : Nat) :
    Sys2Proof.core.run (k + 1) s = .fault f := by
  simp only [Host.Core.run, show Sys2Proof.core.step s = .fault f from step_faulted h]

theorem not_final_of_faulted {s : State} {f : Fault} (h : s.fault = some f) : ¬ Final s :=
  fun hf => nomatch h.symm.trans hf.1

/-- Settles O49: raising changes the fault alone, up to the count of draws; what
follows is `step_faulted`. -/
theorem raisingSetsOnlyTheFault : Obligations.RaisingSetsOnlyTheFault := by
  refine ⟨fun i s s' f hd hs h hf => ?defined, fun i s s' f hp hs h hf => ?uncorrupted,
    fun s f hf => ⟨run_succ_faulted hf, not_final_of_faulted hf⟩⟩
  case defined => exact (exec_raisesAlone hd h).eq_withFault hs hf
  case uncorrupted =>
    rcases exec_raisesAlone_uncorrupted hp h with hr | hr
    · rw [hr.eq_withFault hs hf]
    · rw [hr.eq_withFault hs hf]
      rfl

end Sys2Proof.Machine
end

section
/-! PROOFS, 60_exceptions: the closed list of faults, exceptions and refusals (R124). -/
namespace Sys2Proof.Machine

/-! ### The faults an instruction answers

Neither the load nor a permitted outcome of R108 answers a fault, so what is left is UNPREDICTABLE. -/

theorem transfer_ne_fault {d : Operands} {s : State} {g : Fault} : transfer d s ≠ .fault g :=
  fun h => nomatch (transfer_stopsAlike d s (.next s)).2 g h

theorem permitted_ne_fault {o : Config.CuOutcome} {w : Word} {b : Bool} {d : Operands} {s : State}
    {g : Fault} : permitted o w b d s ≠ .fault g :=
  fun h => nomatch (permitted_stopsAlike o w b d s (.next s)).2 g h

theorem unlessHidden_fault {s : State} {b : Bool} {act : Host.Outcome State Fault Refusal}
    {g : Fault} (h : unlessHidden s b act = .fault g) : act = .fault g := by
  unfold unlessHidden at h
  split at h
  · exact h
  · exact nomatch h

theorem withCond_fault {c : Option Cond} {s : State} {k : Bool → Host.Outcome State Fault Refusal}
    {g : Fault} (h : withCond c s k = .fault g) : ∃ b, k b = .fault g := by
  cases c with
  | none => exact nomatch h
  | some c => exact ⟨_, h⟩

theorem unpredictable_fault {r : UnpredictableReason} {c : Option Cond} {s : State} {g : Fault}
    (h : unpredictable r c s = .fault g) : g = .unpredictable r := by
  obtain ⟨b, hb⟩ := withCond_fault h
  exact (Host.Outcome.fault.inj (unlessHidden_fault hb)).symm

theorem undefinedInstruction_ne_fault {w : Word} {c : Option Cond} {s : State} {g : Fault} :
    undefinedInstruction w c s ≠ .fault g := by
  intro h
  obtain ⟨b, hb⟩ := withCond_fault h
  exact nomatch unlessHidden_fault hb

theorem constrained_fault {w : Word} {b : Bool} {d : Operands} {s : State} {g : Fault}
    (h : constrained w b d s = .fault g) : g = .unpredictable .wbackNEqT := by
  have hact := unlessHidden_fault h
  split at hact
  · exact (Host.Outcome.fault.inj hact).symm
  · exact absurd hact permitted_ne_fault
  · exact absurd hact permitted_ne_fault

theorem loadSignedByte_fault {w : Word} {c : Option Cond} {d : Operands} {s : State} {g : Fault}
    (h : loadSignedByte w c d s = .fault g) : g = .unpredictable .wbackNEqT := by
  obtain ⟨b, hb⟩ := withCond_fault h
  split at hb
  · exact constrained_fault hb
  · split at hb
    · exact absurd hb transfer_ne_fault
    · exact nomatch hb

theorem exec_fault {i : Instr} {s : State} {g : Fault} (h : exec i s = .fault g) :
    ∃ r, g = .unpredictable r := by
  rcases exec_shape i with ⟨r, he, -⟩ | ⟨r, he⟩ | ⟨-, he⟩ | ⟨d, -, he⟩ <;> rw [he] at h
  · exact nomatch h
  · exact ⟨r, unpredictable_fault h⟩
  · exact absurd h undefinedInstruction_ne_fault
  · exact ⟨_, loadSignedByte_fault h⟩

/-! ### The refusals an instruction answers -/

theorem undefinedInstruction_refused {w : Word} {c : Option Cond} {s : State} {r : Refusal}
    (h : undefinedInstruction w c s = .refused r) : r = .illegalItstate :=
  withCond_refused (fun _ => unlessHidden_neverRefuses (.next _)) h

theorem exec_refused {i : Instr} {s : State} {r : Refusal} (h : exec i s = .refused r) :
    r ∈ [.seeLdrsbLiteral, .seeLdrsbt, .seePli, .illegalItstate] := by
  rcases exec_shape i with ⟨q, he, hq⟩ | ⟨q, he⟩ | ⟨-, he⟩ | ⟨d, -, he⟩ <;> rw [he] at h
  · exact List.mem_append_left [.illegalItstate] (Host.Outcome.refused.inj h ▸ hq)
  · simp [unpredictable_refused h]
  · simp [undefinedInstruction_refused h]
  · simp [loadSignedByte_refused h]

/-! ### The faults and exceptions of a step -/

/-- The faults of a step before its instruction runs. -/
theorem fetchInstr_fault {s : State} {g : Fault} (hs : s.fault = none)
    (h : fetchInstr s = .fault g) : g = .pcWrap ∨ g = .fetchFault s.pc := by
  simp only [fetchInstr, hs] at h
  split at h
  · exact nomatch h
  split at h
  · exact nomatch h
  split at h
  · exact nomatch h
  split at h
  · cases h; exact .inl rfl
  split at h
  · cases h; exact .inr rfl
  cases hd : decode s.iset (fetchWord s) with
  | instr i => rw [hd] at h; exact nomatch h
  | notLdrsbImmediate => rw [hd] at h; exact nomatch h

/-- A faulted step was stopped before its instruction ran or by that instruction. -/
theorem step_fault {s : State} {g : Fault} (h : step s = .fault g) :
    fetchInstr s = .fault g ∨ ∃ i, exec i s = .fault g := by
  unfold step at h
  split at h
  case h_1 i _ => exact .inr ⟨i, h⟩
  case h_2 hf => cases h; exact .inl hf
  case h_3 => exact nomatch h

/-- An instruction that records a fault where none was records an architectural exception. -/
theorem exec_records_exception {i : Instr} {s s' : State} {f : Fault} (hs : s.fault = none)
    (h : exec i s = .next s') (hf : s'.fault = some f) : f.isException = true := by
  obtain ⟨-, -, -, -, -, -, ⟨-, -, hsame⟩ | ⟨-, -, g, hg, hrec⟩⟩ := (exec_effect i s).keeps h
  · exact nomatch hf.symm.trans (hsame.trans hs)
  · exact Option.some.inj (hrec.symm.trans hf) ▸ hg

theorem isException_eq_true {f : Fault} :
    f.isException = true ↔ (∃ w, f = .undefinedInstruction w) ∨ ∃ a, f = .dataAbort a := by
  cases f <;> simp [Fault.isException]

/-- The refusals of R124 and the model's own `runOver`. -/
def listedRefusals : List Refusal :=
  [.notLdrsbImmediate, .seeLdrsbLiteral, .seeLdrsbt, .seePli, .misalignedPc, .illegalItstate, .runOver]

/-- Settles O50: each outcome is one of the fetch or of the instruction it gave. -/
theorem outcomesAreTheClosedList : Obligations.OutcomesAreTheClosedList := by
  refine fun s hs => ⟨fun f h => ?fault, fun s' f h hf => ?exception, fun r h => ?refused⟩
  case fault =>
    rcases step_fault h with hfetch | ⟨i, he⟩
    · exact .inr (fetchInstr_fault hs hfetch)
    · exact .inl (exec_fault he)
  case exception =>
    obtain ⟨i, -, -, he⟩ := step_eq_next h
    exact isException_eq_true.1 (exec_records_exception hs he hf)
  case refused =>
    rcases step_refused h with hfetch | ⟨i, -, he⟩
    · have hsub : [.runOver, .misalignedPc, .illegalItstate, .notLdrsbImmediate] ⊆
          listedRefusals := by decide
      exact hsub hfetch
    · have hsub : [.seeLdrsbLiteral, .seeLdrsbt, .seePli, .illegalItstate] ⊆
          listedRefusals := by decide
      exact hsub (exec_refused he)

end Sys2Proof.Machine
end

section
/-! PROOFS, 70_reset_and_hazards: the reset state, the end of a run, and a word placed for the next step
(R140, R142, R143, log entry 18). -/
namespace Sys2Proof.Machine

/-- Settles O54: no block is open and nothing is listed in memory. -/
theorem resetMeetsTheInvariant : Obligations.ResetMeetsTheInvariant := by
  refine ⟨⟨?memory, ?aligned, ?block, ?fault⟩, ?launch⟩
  case memory => exact ⟨.nil, nofun⟩
  case aligned => decide
  case block => decide
  case fault => exact fun _ h => nomatch h
  case launch => exact ⟨rfl, by decide, by decide⟩

/-- The check after the recorded fault, in the order of R116. -/
theorem step_runOver {s : State} (hs : Final s) : step s = .refused .runOver := by
  obtain ⟨hf, hh⟩ := hs
  simp only [step, fetchInstr, hf, hh, if_true]

/-- Settles O48: a state is final whatever its memory. -/
theorem runEndsAtHaltPc : Obligations.RunEndsAtHaltPc :=
  fun s m hf hh => ⟨⟨hf, hh⟩, step_runOver (s := s.withMem m) ⟨hf, hh⟩⟩

/-! ### What `placeWord` prepares is ready to fetch -/

theorem pcWraps_eq_false {pc : Word} : pcWraps pc = false ↔ pc.toNat < 0xFFFFFFFC := by
  rw [← Bool.not_eq_true, pcWraps_iff, not_le]

/-- Below the top of memory the addresses of the fetched bytes do not wrap (R27). -/
theorem toNat_pc_add {pc : Word} (hw : pcWraps pc = false) {j : Nat} (hj : j < 4) :
    (pc + BitVec.ofNat 32 j).toNat = pc.toNat + j := by
  have hlt : pc.toNat < 0xFFFFFFFC := pcWraps_eq_false.1 hw
  rw [BitVec.toNat_add, BitVec.toNat_ofNat]
  omega

section place
variable (s : State) (k : ISet) (w : Word)

theorem placeWord_pc :
    pcAligned k (placeWord s k w).pc = true ∧ pcWraps (placeWord s k w).pc = false := by
  simp only [placeWord]
  split
  case isTrue h => simpa using h
  case isFalse => cases k <;> decide

theorem placeWord_itLegal : itLegal k (placeWord s k w).it = true := by
  simp only [placeWord]
  split
  case isTrue h => exact h
  case isFalse => cases k <;> decide

theorem placeWord_haltPc :
    (placeWord s k w).params.haltPc ≠ some (placeWord s k w).pc := by
  by_cases h : s.params.haltPc = some (placeWord s k w).pc
  case pos =>
    have hnone : (placeWord s k w).params.haltPc = none := if_pos h
    simp [hnone]
  case neg =>
    have hsame : (placeWord s k w).params.haltPc = s.params.haltPc := if_neg h
    rwa [hsame]

/-- A window of the four bytes admits the fetch below the top of memory. -/
theorem fetchAdmitted_of_window {p : Config.Params} {pc : Word} (hw : pcWraps pc = false)
    (h : ⟨pc, pc + 3, .fetch⟩ ∈ p.memAdmit) : fetchAdmitted p pc = true := by
  have hlast : (pc + 3).toNat = pc.toNat + 3 := toNat_pc_add hw (j := 3) (by decide)
  refine fetchAdmitted_iff.2 fun j hj => admits_eq_true.2 ⟨_, h, rfl, ?_⟩
  rw [toNat_pc_add hw hj, hlast]
  exact ⟨Nat.le_add_right _ _, Nat.add_le_add_left (Nat.le_of_lt_succ hj) _⟩

theorem placeWord_fetchAdmitted :
    fetchAdmitted (placeWord s k w).params (placeWord s k w).pc = true := by
  by_cases h : fetchAdmitted s.params (placeWord s k w).pc = true
  case pos =>
    have hsame : (placeWord s k w).params.memAdmit = s.params.memAdmit := if_pos h
    simpa only [fetchAdmitted, admits, hsame] using h
  case neg =>
    have hnew : (placeWord s k w).params.memAdmit = s.params.memAdmit ++
        [⟨(placeWord s k w).pc, (placeWord s k w).pc + 3, .fetch⟩] := if_neg h
    exact fetchAdmitted_of_window (placeWord_pc s k w).2 (by simp [hnew])

theorem placeWord_ready : FetchReady (placeWord s k w) := by
  obtain ⟨haligned, hbelow⟩ := placeWord_pc s k w
  exact ⟨⟨rfl, haligned, placeWord_itLegal s k w⟩, placeWord_haltPc s k w, hbelow,
    placeWord_fetchAdmitted s k w⟩

/-! ### The placed word is the word fetched -/

/-- The four bytes of a written word, read back in place. -/
theorem Memory.read_writeWord {m : Memory} (hm : m.wf) (pc : Word) :
    (m.writeWord k pc w).read pc = byteOfWord k w 0 ∧
      (m.writeWord k pc w).read (pc + 1) = byteOfWord k w 1 ∧
      (m.writeWord k pc w).read (pc + 2) = byteOfWord k w 2 ∧
      (m.writeWord k pc w).read (pc + 3) = byteOfWord k w 3 := by
  have h0 := Memory.wf_write hm pc (byteOfWord k w 0)
  have h1 := Memory.wf_write h0 (pc + 1) (byteOfWord k w 1)
  have h2 := Memory.wf_write h1 (pc + 2) (byteOfWord k w 2)
  simpa [Memory.writeWord, Memory.read_write_ne] using
    (⟨Memory.read_write_self hm _ _, Memory.read_write_self h0 _ _, Memory.read_write_self h1 _ _,
      Memory.read_write_self h2 (pc + 3) (byteOfWord k w 3)⟩ : _ ∧ _ ∧ _ ∧ _)

theorem fetchWord_placeWord (hm : s.mem.wf) : fetchWord (placeWord s k w) = w := by
  obtain ⟨h0, h1, h2, h3⟩ := Memory.read_writeWord k w hm (placeWord s k w).pc
  have hmem : (placeWord s k w).mem = s.mem.writeWord k (placeWord s k w).pc w := rfl
  have hset : (placeWord s k w).iset = k := rfl
  rw [fetchWord, hmem, hset, h0, h1, h2, h3, wordOfBytes_byteOfWord]

end place

/-- The table's word is decoded as it stands: its bytes, read back, are the word. -/
theorem decodeTableWord_eq_some {n w : Nat} {i : Instr} (h : decodeTableWord n w = some i) :
    decode (tableSet (tableWord n w)) (tableWord n w) = .instr i := by
  simp only [decodeTableWord, wordOfBytes_byteOfWord] at h
  split at h
  case h_1 hd =>
    cases h
    exact hd
  case h_2 => exact nomatch h

/-- Settles O53: the placed state is ready to fetch, and fetches the word. -/
theorem placedWordRunsNext : Obligations.PlacedWordRunsNext := by
  intro s w i hm _ hi
  have hfetch : fetchWord (s.withFetchWord 32 w) = tableWord 32 w := fetchWord_placeWord s _ _ hm
  refine ⟨step_of_ready (placeWord_ready s _ _) ?decoded, ?canonical⟩
  case decoded =>
    rw [hfetch]
    exact decodeTableWord_eq_some hi
  case canonical => exact Memory.wf_writeWord hm _ _ _

end Sys2Proof.Machine
end

section
/-! PROOFS, 70_reset_and_hazards: a run is a straight line below the top of memory (R27, R143, R149, D29). -/
namespace Sys2Proof.Machine

/-- A run that goes on went on at its last step. -/
theorem run_succ_next_last {k : Nat} {s t : State}
    (h : Sys2Proof.core.run (k + 1) s = .next t) :
    ∃ u, Sys2Proof.core.run k s = .next u ∧ step u = .next t := by
  induction k generalizing s with
  | zero =>
    obtain ⟨u, hu, hrun⟩ := run_succ_next h
    cases hrun
    exact ⟨s, rfl, hu⟩
  | succ k ih =>
    obtain ⟨v, hv, hrun⟩ := run_succ_next h
    obtain ⟨u, hu, hlast⟩ := ih hrun
    exact ⟨u, (run_succ_of hv).trans hu, hlast⟩

/-- A step that records no fault moves `pc` up by 4: it fetched below the top of memory. -/
theorem step_pc {s t : State} (h : step s = .next t) (ht : t.fault = none) :
    t.pc.toNat = s.pc.toNat + 4 := by
  obtain ⟨i, ⟨⟨hs, -, -⟩, -, hw, -⟩, -, he⟩ := step_eq_next h
  have hlt : s.pc.toNat < 0xFFFFFFFC := pcWraps_eq_false.1 hw
  rw [(pcAdvancesByFour i s t hs he).1 ht]
  omega

theorem step_fault_none {s t : State} (h : step s = .next t) : s.fault = none := by
  obtain ⟨-, ⟨⟨hs, -, -⟩, -, -, -⟩, -, -⟩ := step_eq_next h
  exact hs

/-- No step but the last of a run can record a fault, so where the run ends without one, all moved `pc`. -/
theorem run_pc {k : Nat} {s t : State} (h : Sys2Proof.core.run k s = .next t)
    (ht : t.fault = none) : t.pc.toNat = s.pc.toNat + 4 * k := by
  induction k generalizing t with
  | zero =>
    cases h
    rfl
  | succ k ih =>
    obtain ⟨u, hu, hlast⟩ := run_succ_next_last h
    rw [step_pc hlast ht, ih hu (step_fault_none hlast)]
    omega

/-- Settles O57: the launch parameters, `HALT_PC` among them, are those at the start. -/
theorem completedRunIsStraightLine : Obligations.CompletedRunIsStraightLine := by
  rintro k s t ⟨hrun, hfault, hhalt⟩
  obtain ⟨-, -, -, -, hparams⟩ := runKeepsTheLaunchMemory k s t hrun
  exact ⟨run_pc hrun hfault, hparams ▸ hhalt⟩

/-- Every step of a run but the last has moved `pc` up by 4 inside the address space. -/
theorem run_succ_pc_bound {k : Nat} {s t : State}
    (h : Sys2Proof.core.run (k + 1) s = .next t) : s.pc.toNat + 4 * k < 2 ^ 32 := by
  obtain ⟨u, hu, hlast⟩ := run_succ_next_last h
  rw [← run_pc hu (step_fault_none hlast)]
  exact u.pc.isLt

/-- Settles O58: `2^30` advances by 4 do not fit. -/
theorem everyRunStops : Obligations.EveryRunStops := by
  intro s s' h
  have hbound : s.pc.toNat + 4 * 2 ^ 30 < 2 ^ 32 := run_succ_pc_bound h
  omega

end Sys2Proof.Machine
end

section
/-! PROOFS, 70_reset_and_hazards: an aborted load can be run again (R145, R146). -/
namespace Sys2Proof.Machine

theorem operandsFrom_of_ne {rn rt : BitVec 4} (hn : rn ≠ 15#4) (ht : rt ≠ 15#4)
    (f : RegNum → RegNum → Operands) : ∃ d, operandsFrom rn rt f = some d := by
  obtain ⟨n, hn⟩ := gp?_of_ne hn
  obtain ⟨t, ht⟩ := gp?_of_ne ht
  exact ⟨_, operandsFrom_of hn ht f⟩

/-- What software must write (R145) has decode outputs, and their behaviour is defined. -/
theorem operandsOf_of_predictable {i : Instr} (h : i.predictable = true) :
    ∃ d, operandsOf i = some d ∧ d.defined := by
  cases i with
  | ldrsbA1Off | ldrsbT1 | ldrsbT2Off =>
    simp only [Instr.predictable, Bool.and_eq_true, bne_iff_ne] at h
    obtain ⟨hn, ht⟩ := h
    exact (operandsFrom_of_ne hn ht _).imp fun d hd =>
      ⟨hd, operandsFrom_wback_false (fun _ _ => rfl) hd⟩
  | ldrsbA1Post | ldrsbA1Pre | ldrsbT2Post | ldrsbT2Pre =>
    simp only [Instr.predictable, Bool.and_eq_true, bne_iff_ne] at h
    obtain ⟨⟨hn, ht⟩, hne⟩ := h
    exact (operandsFrom_of_ne hn ht _).imp fun d hd =>
      ⟨hd, operandsFrom_defined (fun _ _ => ⟨rfl, rfl⟩) hne.symm hd⟩
  | undefinedT2 | seeLdrsbtA1 | seeLdrsbtT2 | seePliT1 | seePliT2 | seeLiteralA1 | seeLiteralT1
  | seeLiteralT2 => exact nomatch h

/-- A defined `LDRSB` that records a fault had its condition passed and its read refused: neither the
failed condition nor the completed load records one. -/
theorem exec_eq_next_faulted {i : Instr} {d : Operands} {s s' : State} {f : Fault}
    (ho : operandsOf i = some d) (hd : d.defined) (hs : s.fault = none)
    (h : exec i s = .next s') (hf : s'.fault = some f) :
    ∃ c, condOf s i = some c ∧ condHolds c s.flags = true ∧
      s' = { s with fault := some (.dataAbort (d.address (s.x d.n))) } := by
  cases hc : condOf s i with
  | none =>
    rw [exec_eq_loadSignedByte s ho, hc] at h
    exact nomatch h
  | some c =>
    cases hp : condHolds c s.flags
    case false =>
      rw [exec_failed ho hd hc hp] at h
      cases h
      exact nomatch hs.symm.trans hf
    case true =>
      cases ha : admits s.params (d.address (s.x d.n)) .dataRead
      case false =>
        rw [exec_abort ho hd hc hp ha] at h
        cases h
        exact ⟨c, rfl, hp, rfl⟩
      case true =>
        rw [exec_loaded ho hd hc hp ha] at h
        cases h
        exact nomatch (hs.symm.trans (s.loaded_fault d).symm).trans hf

/-- Settles O26: the abort changed the fault alone, so with the fault cleared the retry starts where the
first execution did. -/
theorem abortedLoadIsRepeatable : Obligations.AbortedLoadIsRepeatable := by
  intro i s s' a p hi hs h hf ha
  obtain ⟨d, ho, hd⟩ := operandsOf_of_predictable hi
  obtain ⟨c, hc, hp, rfl⟩ := exec_eq_next_faulted ho hd hs h hf
  obtain rfl : d.address (s.x d.n) = a := Fault.dataAbort.inj (Option.some.inj hf)
  have hfirst : exec i { s with params := p } = .next (State.loaded d { s with params := p }) :=
    exec_loaded ho hd ((condOf_congr i rfl).trans hc) hp ha
  refine ⟨fun _ => rfl, _, hfirst, (State.loaded_fault _ d).trans hs, ?retry⟩
  case retry => rwa [hs] at hfirst ⊢

end Sys2Proof.Machine
end

section
/-! PROOFS, 95_test_vectors: the decode vectors of section 2 (R61 to R63, R65). -/
namespace Sys2Proof

/-- The encoder confirms a decode vector: the word need only be that of the instruction claimed for it. -/
theorem decode_of_encode_eq {i : Instr} {s : ISet} {w : Word} (hs : i.iset = s)
    (hi : i.wellFormed = true) (hw : encode i = w) : decode s w = .instr i := by
  subst hs hw
  exact decodeOfEncode i hi

/-- Settles O5: each instruction is well formed and the encoder gives it the vector's word. -/
theorem sampleWordsDecode : Obligations.SampleWordsDecode := by
  refine ⟨?a1Off, ?a1Post, ?a1Pre, ?t1, ?t2Off, ?t2Post, ?t2Pre, ?undefined⟩ <;>
    exact decode_of_encode_eq rfl (by decide) (by decide)

end Sys2Proof
end
